-- ==== Sys2Proof/Word.lean ====
section
/-! DEFINITION. Word types of the AP2008/chip8 core (00_scope.md R7, R8; 10_state.md R31, R35, R36). -/
namespace Sys2Proof

/-- An 8-bit register or memory value (R31, R80); every value is unsigned (R8). -/
abbrev Byte := BitVec 8

/-- A 16-bit value: `I`, `pc`, a stack entry, an instruction word (R35, R36, R40, R110). -/
abbrev Word := BitVec 16

/-- The time base TIME: exact rationals in seconds (R65, D27; 95_test_vectors.md section T-TM). -/
abbrev Time := Rat

end Sys2Proof
end

