-- ==== Sys2Proof/Syntax.lean ====
section
/-! DEFINITION. The 35 operations of 30_encoding.md R115 (spec/opcode_table.json), one constructor each. -/
namespace Sys2Proof

/-- A general register V0 .. VF: a 4-bit index, so always in range (R31, R34). -/
abbrev Reg := Fin 16

/-- VF, the flag register as well as a general one (R32). -/
abbrev VF : Reg := 15

/-- One operation with its operands. The operand names are those of R111: `x` and `y` register indices, `kk` an 8-bit
immediate, `nnn` a 12-bit address, `n` a sprite height 0..15. -/
inductive Instr where
  /-- 00E0 CLS (R245). -/
  | cls
  /-- 00EE RET (R171). -/
  | ret
  /-- 0nnn HALT, `nnn` neither 0x0E0 nor 0x0EE; `nnn` is kept as encoded and ignored (R179, R117). -/
  | halt (nnn : BitVec 12)
  /-- 1nnn JP addr (R173). -/
  | jp (nnn : BitVec 12)
  /-- 2nnn CALL addr (R172). -/
  | call (nnn : BitVec 12)
  /-- 3xkk SE Vx, byte (R174). -/
  | seVxKk (x : Reg) (kk : Byte)
  /-- 4xkk SNE Vx, byte (R175). -/
  | sneVxKk (x : Reg) (kk : Byte)
  /-- 5xy0 SE Vx, Vy (R176). -/
  | seVxVy (x y : Reg)
  /-- 6xkk LD Vx, byte (R191). -/
  | ldVxKk (x : Reg) (kk : Byte)
  /-- 7xkk ADD Vx, byte (R192). -/
  | addVxKk (x : Reg) (kk : Byte)
  /-- 8xy0 LD Vx, Vy (R193). -/
  | ldVxVy (x y : Reg)
  /-- 8xy1 OR Vx, Vy (R194). -/
  | or (x y : Reg)
  /-- 8xy2 AND Vx, Vy (R195). -/
  | and (x y : Reg)
  /-- 8xy3 XOR Vx, Vy (R196). -/
  | xor (x y : Reg)
  /-- 8xy4 ADD Vx, Vy (R197). -/
  | addVxVy (x y : Reg)
  /-- 8xy5 SUB Vx, Vy (R198). -/
  | sub (x y : Reg)
  /-- 8xy6 SHR Vx; `y` is encoded and ignored (R199, D19). -/
  | shr (x y : Reg)
  /-- 8xy7 SUBN Vx, Vy (R200). -/
  | subn (x y : Reg)
  /-- 8xyE SHL Vx; `y` is encoded and ignored (R201, D19). -/
  | shl (x y : Reg)
  /-- 9xy0 SNE Vx, Vy (R177). -/
  | sneVxVy (x y : Reg)
  /-- Annn LD I, addr (R220). -/
  | ldI (nnn : BitVec 12)
  /-- Bnnn JP V0, addr (R178). -/
  | jpV0 (nnn : BitVec 12)
  /-- Cxkk RND Vx, byte (R202). -/
  | rnd (x : Reg) (kk : Byte)
  /-- Dxyn DRW Vx, Vy, n (R246). -/
  | drw (x y : Reg) (n : Fin 16)
  /-- Ex9E SKP Vx (R283). -/
  | skp (x : Reg)
  /-- ExA1 SKNP Vx (R284). -/
  | sknp (x : Reg)
  /-- Fx07 LD Vx, DT (R264). -/
  | ldVxDt (x : Reg)
  /-- Fx0A LD Vx, K (R285). -/
  | ldVxK (x : Reg)
  /-- Fx15 LD DT, Vx (R265). -/
  | ldDtVx (x : Reg)
  /-- Fx18 LD ST, Vx (R266). -/
  | ldStVx (x : Reg)
  /-- Fx1E ADD I, Vx (R221). -/
  | addIVx (x : Reg)
  /-- Fx29 LD F, Vx (R222). -/
  | ldFVx (x : Reg)
  /-- Fx33 LD B, Vx (R223). -/
  | ldBVx (x : Reg)
  /-- Fx55 LD [I], Vx (R224). -/
  | ldMemVx (x : Reg)
  /-- Fx65 LD Vx, [I] (R225). -/
  | ldVxMem (x : Reg)
deriving DecidableEq, Repr

end Sys2Proof
end

