-- ==== Sys2Proof/Decode.lean ====
section
/-! DEFINITION. The decoder of 30_encoding.md R116, total on every word and on any bytes, and the encoder from the same
opcode map (R115). The field layout is R111's; the byte order is R87's. -/
namespace Sys2Proof

/-- Field 1, `op` = w[15:12] (R111). -/
def opField (w : Word) : Nat := w.toNat / 0x1000

/-- Field 2, the register index `x` = w[11:8] (R111). -/
def xField (w : Word) : Reg := ⟨w.toNat / 0x100 % 16, Nat.mod_lt _ (by decide)⟩

/-- Field 3, the register index `y` = w[7:4] (R111). -/
def yField (w : Word) : Reg := ⟨w.toNat / 0x10 % 16, Nat.mod_lt _ (by decide)⟩

/-- Field 4, the sprite height `n` = w[3:0] (R111). -/
def nField (w : Word) : Fin 16 := ⟨w.toNat % 16, Nat.mod_lt _ (by decide)⟩

/-- The 8-bit immediate `kk` = w[7:0] (R111). -/
def kkField (w : Word) : Byte := BitVec.ofNat 8 w.toNat

/-- The 12-bit address `nnn` = w[11:0] (R111). -/
def nnnField (w : Word) : BitVec 12 := BitVec.ofNat 12 w.toNat

/-- Why bytes do not decode. -/
inductive DecodeError where
  /-- The word matches no row of the opcode map (R116, R118). -/
  | invalidOpcode (w : Word)
  /-- Fewer than the two bytes of an instruction were given (R110). -/
  | truncated
deriving DecidableEq, Repr

/-- The operations of op = 8, selected by `n` (R116). -/
def decodeAlu (w : Word) : Except DecodeError Instr :=
  match (nField w).val with
  | 0x0 => .ok (.ldVxVy (xField w) (yField w))
  | 0x1 => .ok (.or (xField w) (yField w))
  | 0x2 => .ok (.and (xField w) (yField w))
  | 0x3 => .ok (.xor (xField w) (yField w))
  | 0x4 => .ok (.addVxVy (xField w) (yField w))
  | 0x5 => .ok (.sub (xField w) (yField w))
  | 0x6 => .ok (.shr (xField w) (yField w))
  | 0x7 => .ok (.subn (xField w) (yField w))
  | 0xE => .ok (.shl (xField w) (yField w))
  | _ => .error (.invalidOpcode w)

/-- The operations of op = E, selected by `kk` (R116). -/
def decodeKey (w : Word) : Except DecodeError Instr :=
  match (kkField w).toNat with
  | 0x9E => .ok (.skp (xField w))
  | 0xA1 => .ok (.sknp (xField w))
  | _ => .error (.invalidOpcode w)

/-- The operations of op = F, selected by `kk` (R116). -/
def decodeMisc (w : Word) : Except DecodeError Instr :=
  match (kkField w).toNat with
  | 0x07 => .ok (.ldVxDt (xField w))
  | 0x0A => .ok (.ldVxK (xField w))
  | 0x15 => .ok (.ldDtVx (xField w))
  | 0x18 => .ok (.ldStVx (xField w))
  | 0x1E => .ok (.addIVx (xField w))
  | 0x29 => .ok (.ldFVx (xField w))
  | 0x33 => .ok (.ldBVx (xField w))
  | 0x55 => .ok (.ldMemVx (xField w))
  | 0x65 => .ok (.ldVxMem (xField w))
  | _ => .error (.invalidOpcode w)

/-- `decode(w)` (R116): one of the 35 operations or InvalidOpcode, for every word. The two fixed words of op = 0 come
before the halt sentinel. -/
def decodeWord (w : Word) : Except DecodeError Instr :=
  match opField w with
  | 0x0 =>
    if w = 0x00E0#16 then .ok .cls
    else if w = 0x00EE#16 then .ok .ret
    else .ok (.halt (nnnField w))
  | 0x1 => .ok (.jp (nnnField w))
  | 0x2 => .ok (.call (nnnField w))
  | 0x3 => .ok (.seVxKk (xField w) (kkField w))
  | 0x4 => .ok (.sneVxKk (xField w) (kkField w))
  | 0x5 => if (nField w).val = 0 then .ok (.seVxVy (xField w) (yField w)) else .error (.invalidOpcode w)
  | 0x6 => .ok (.ldVxKk (xField w) (kkField w))
  | 0x7 => .ok (.addVxKk (xField w) (kkField w))
  | 0x8 => decodeAlu w
  | 0x9 => if (nField w).val = 0 then .ok (.sneVxVy (xField w) (yField w)) else .error (.invalidOpcode w)
  | 0xA => .ok (.ldI (nnnField w))
  | 0xB => .ok (.jpV0 (nnnField w))
  | 0xC => .ok (.rnd (xField w) (kkField w))
  | 0xD => .ok (.drw (xField w) (yField w) (nField w))
  | 0xE => decodeKey w
  | 0xF => decodeMisc w
  | _ => .error (.invalidOpcode w)

/-- The big-endian word of two bytes: the byte at the lower address is bits 15:8 (R87). -/
def wordOfBytes (hi lo : Byte) : Word := hi ++ lo

/-- The byte of a word at the lower address (R87). -/
def hiByte (w : Word) : Byte := BitVec.ofNat 8 (w.toNat / 0x100)

/-- The byte of a word at the higher address (R87). -/
def loByte (w : Word) : Byte := BitVec.ofNat 8 w.toNat

/-- Decode the first instruction of any bytes and give back the rest. Every instruction is two bytes (R110). -/
def decode : List Byte → Except DecodeError (Instr × List Byte)
  | hi :: lo :: rest => (decodeWord (wordOfBytes hi lo)).map fun i => (i, rest)
  | _ => .error .truncated

/-- Assemble op and nnn (format NNN of R114). -/
def encodeNnn (op : Nat) (nnn : BitVec 12) : Word := BitVec.ofNat 16 (op * 0x1000 + nnn.toNat)

/-- Assemble op, x and kk (formats XKK and X of R114). -/
def encodeXkk (op : Nat) (x : Reg) (kk : Byte) : Word := BitVec.ofNat 16 (op * 0x1000 + x.val * 0x100 + kk.toNat)

/-- Assemble op, x, y and n (formats XY and XYN of R114). -/
def encodeXyn (op : Nat) (x y : Reg) (n : Nat) : Word :=
  BitVec.ofNat 16 (op * 0x1000 + x.val * 0x100 + y.val * 0x10 + n)

/-- The word of an instruction (R115). -/
def encode : Instr → Word
  | .cls => 0x00E0#16
  | .ret => 0x00EE#16
  | .halt nnn => encodeNnn 0x0 nnn
  | .jp nnn => encodeNnn 0x1 nnn
  | .call nnn => encodeNnn 0x2 nnn
  | .seVxKk x kk => encodeXkk 0x3 x kk
  | .sneVxKk x kk => encodeXkk 0x4 x kk
  | .seVxVy x y => encodeXyn 0x5 x y 0x0
  | .ldVxKk x kk => encodeXkk 0x6 x kk
  | .addVxKk x kk => encodeXkk 0x7 x kk
  | .ldVxVy x y => encodeXyn 0x8 x y 0x0
  | .or x y => encodeXyn 0x8 x y 0x1
  | .and x y => encodeXyn 0x8 x y 0x2
  | .xor x y => encodeXyn 0x8 x y 0x3
  | .addVxVy x y => encodeXyn 0x8 x y 0x4
  | .sub x y => encodeXyn 0x8 x y 0x5
  | .shr x y => encodeXyn 0x8 x y 0x6
  | .subn x y => encodeXyn 0x8 x y 0x7
  | .shl x y => encodeXyn 0x8 x y 0xE
  | .sneVxVy x y => encodeXyn 0x9 x y 0x0
  | .ldI nnn => encodeNnn 0xA nnn
  | .jpV0 nnn => encodeNnn 0xB nnn
  | .rnd x kk => encodeXkk 0xC x kk
  | .drw x y n => encodeXyn 0xD x y n.val
  | .skp x => encodeXkk 0xE x 0x9E#8
  | .sknp x => encodeXkk 0xE x 0xA1#8
  | .ldVxDt x => encodeXkk 0xF x 0x07#8
  | .ldVxK x => encodeXkk 0xF x 0x0A#8
  | .ldDtVx x => encodeXkk 0xF x 0x15#8
  | .ldStVx x => encodeXkk 0xF x 0x18#8
  | .addIVx x => encodeXkk 0xF x 0x1E#8
  | .ldFVx x => encodeXkk 0xF x 0x29#8
  | .ldBVx x => encodeXkk 0xF x 0x33#8
  | .ldMemVx x => encodeXkk 0xF x 0x55#8
  | .ldVxMem x => encodeXkk 0xF x 0x65#8

/-- The two bytes of an instruction in memory order (R87, R110). -/
def encodeBytes (i : Instr) : List Byte := [hiByte (encode i), loByte (encode i)]

/-- The instruction word of a table row: the low 16 of the `nbits` bits the table gives it (log 33). -/
def tableWord (nbits w : Nat) : Word := BitVec.ofNat 16 (w % 2 ^ nbits)

/-- The instruction the decoder reads from a table row's bits, laid out as the hardware stores them. -/
def decodeTableWord (nbits w : Nat) : Option Instr :=
  match decode [hiByte (tableWord nbits w), loByte (tableWord nbits w)] with
  | .ok (i, _) => some i
  | .error _ => none

/-- The bits a row of spec/opcode_table.json fixes: its `mask`. -/
def rowMask : Instr → Word
  | .cls | .ret => 0xFFFF#16
  | .halt _ | .jp _ | .call _ | .seVxKk _ _ | .sneVxKk _ _ | .ldVxKk _ _ | .addVxKk _ _ | .ldI _ | .jpV0 _ | .rnd _ _
  | .drw _ _ _ => 0xF000#16
  | .seVxVy _ _ | .ldVxVy _ _ | .or _ _ | .and _ _ | .xor _ _ | .addVxVy _ _ | .sub _ _ | .shr _ _ | .subn _ _
  | .shl _ _ | .sneVxVy _ _ => 0xF00F#16
  | .skp _ | .sknp _ | .ldVxDt _ | .ldVxK _ | .ldDtVx _ | .ldStVx _ | .addIVx _ | .ldFVx _ | .ldBVx _ | .ldMemVx _
  | .ldVxMem _ => 0xF0FF#16

/-- The values of the bits a row of spec/opcode_table.json fixes: its `match`. -/
def rowMatch : Instr → Word
  | .cls => 0x00E0#16
  | .ret => 0x00EE#16
  | .halt _ => 0x0000#16
  | .jp _ => 0x1000#16
  | .call _ => 0x2000#16
  | .seVxKk _ _ => 0x3000#16
  | .sneVxKk _ _ => 0x4000#16
  | .seVxVy _ _ => 0x5000#16
  | .ldVxKk _ _ => 0x6000#16
  | .addVxKk _ _ => 0x7000#16
  | .ldVxVy _ _ => 0x8000#16
  | .or _ _ => 0x8001#16
  | .and _ _ => 0x8002#16
  | .xor _ _ => 0x8003#16
  | .addVxVy _ _ => 0x8004#16
  | .sub _ _ => 0x8005#16
  | .shr _ _ => 0x8006#16
  | .subn _ _ => 0x8007#16
  | .shl _ _ => 0x800E#16
  | .sneVxVy _ _ => 0x9000#16
  | .ldI _ => 0xA000#16
  | .jpV0 _ => 0xB000#16
  | .rnd _ _ => 0xC000#16
  | .drw _ _ _ => 0xD000#16
  | .skp _ => 0xE09E#16
  | .sknp _ => 0xE0A1#16
  | .ldVxDt _ => 0xF007#16
  | .ldVxK _ => 0xF00A#16
  | .ldDtVx _ => 0xF015#16
  | .ldStVx _ => 0xF018#16
  | .addIVx _ => 0xF01E#16
  | .ldFVx _ => 0xF029#16
  | .ldBVx _ => 0xF033#16
  | .ldMemVx _ => 0xF055#16
  | .ldVxMem _ => 0xF065#16

end Sys2Proof
end

