-- ==== Sys2Proof/Config.lean ====
section
/-! DEFINITION. The parameters fixed for this core (00_scope.md R7) and its free values: constants with no body, so that
no proof can learn what they are. -/
namespace Sys2Proof.Config

/-- MEM_SIZE: addresses 0x000 to 0xFFF (R7, R80). -/
def memSize : Nat := 4096

/-- PROGRAM_BASE, the load address and the reset entry point (R7, R36, R331). -/
def programBase : Nat := 0x200

/-- MAX_PROGRAM: the longest image the host may load (R7, R68). -/
def maxProgram : Nat := 3584

/-- TIME, an OPEN parameter (R65, D27): the time the host shows at a step for which `State.host` names none.
The index is the draw counter `State.draws`. Log 24. -/
opaque hostNow (draw : Nat) : Time

/-- RAND, an OPEN parameter (R67, D20): the random byte of a step for which `State.host` names none. Log 17. -/
opaque hostRand (draw : Nat) : Byte

/-- The byte a faulting store leaves at `addr`: unspecified (R304, D11, U9). Log 9. -/
opaque faultByte (draw addr : Nat) : Byte

/-- The value a faulting LD Vx, [I] or DRW leaves in register `r`: unspecified (R304, D11, U9). Log 9. -/
opaque faultReg (draw r : Nat) : Byte

/-- The pixel (x, y) a faulting DRW leaves inside its sprite's box: unspecified (R304, D11, U9). Log 9. -/
opaque faultPixel (draw x y : Nat) : Bool

/-- The `present_count` a faulting DRW leaves: unspecified (R304; 95_test_vectors.md T-FB-9). Log 9. -/
opaque faultPresent (draw : Nat) : Nat

end Sys2Proof.Config
end

