-- ==== Sys2Proof/Machine/State.lean ====
section
/-! DEFINITION. The architectural state of the core (10_state.md R30), the model's input ports, and the state after reset
(R51). -/
namespace Sys2Proof.Machine

/-- A key of the 16-key keypad (R45, R280). -/
abbrev KeyCode := Fin 16

/-- A countdown timer: its value and its elapsed-time reference, the time of its last decrement or set (R42). -/
structure Timer where
  value : Byte
  ref : Time
deriving DecidableEq, Repr

/-- `fb[y][x]`: 32 rows of 64 one-bit pixels, `true` is on (R44). -/
abbrev Framebuffer := Vector (Vector Bool 64) 32

/-- The cells of memory that differ from the reset image, by rising address (R80; Machine/Memory.lean, log 31). -/
abbrev Memory := List Host.Cell

/-- Why a run ended without error (R306). -/
inductive HaltReason where
  /-- HALT was executed (R179). -/
  | sentinel
  /-- `pc` was 4096 or more at a step boundary (R152). -/
  | pcOutOfRange
  /-- The host's quit was seen at a step boundary (R286). -/
  | quit
deriving DecidableEq, Repr

/-- The two fatal errors (R300). -/
inductive FaultKind where
  /-- Decode matched no pattern (R301). -/
  | invalidOpcode
  /-- A memory, register or stack index left its capacity (R302). -/
  | outOfBoundsAccess
deriving DecidableEq, Repr

/-- The cause rows of R302; the address is the first one out of bounds (R83, R84, R90). -/
inductive FaultCause where
  | instructionFetch
  | memoryRead (addr : Nat)
  | memoryWrite (addr : Nat)
  | stackOverflow
  | stackUnderflow
  | indexOverflow
deriving DecidableEq, Repr

/-- The fault record (R303). `word` is `none` when the fetch itself failed (D34). `what` is `none` for InvalidOpcode, for
which R302 has no cause row (log 28). -/
structure FaultRecord where
  kind : FaultKind
  word : Option Word
  pc : Word
  what : Option FaultCause
deriving DecidableEq, Repr

/-- The run state (R47). `halted` and `faulted` are final (R151). -/
inductive RunState where
  | running
  | halted (reason : HaltReason)
  | faulted (record : FaultRecord)
deriving DecidableEq, Repr

/-- What the host does before one step and supplies to it (R63, R65, R66, R67): the keys it latches, oldest first, whether
it raises quit, and the step's `now` and `rand`. -/
structure HostInput where
  keys : List KeyCode
  quit : Bool
  now : Time
  rand : Byte
deriving DecidableEq, Repr

/-- The state of R30 under its own names (`DT.ref` is DT_ref, `ST.ref` is ST_ref), then the model's own fields. -/
structure State where
  /-- Memory (R80). -/
  mem : Memory
  /-- V0 .. VF (R31). -/
  V : Vector Byte 16
  /-- The index register (R35). -/
  I : Word
  /-- The program counter (R36). -/
  pc : Word
  /-- The number of call-stack entries in use, 0 .. 16 (R39). -/
  sp : Fin 17
  /-- The call stack (R39, R40). -/
  stack : Vector Word 16
  /-- The delay timer (R42). -/
  DT : Timer
  /-- The sound timer (R42, R43). -/
  ST : Timer
  /-- The framebuffer (R44). -/
  fb : Framebuffer
  /-- The input latch, oldest first (R45). -/
  latch : List KeyCode
  /-- The host's quit request (R46). -/
  quitReq : Bool
  /-- The run state (R47). -/
  run : RunState
  /-- The number of `present` signals so far (R62). -/
  presentCount : Nat
  /-- MODEL's own: the input port `now` as sampled for the current step (R65, log 24). -/
  now : Time
  /-- MODEL's own: the input port `rand` as sampled for the current step (R67, log 17). -/
  rand : Byte
  /-- MODEL's own: the host's coming actions, one entry a step (R66, log 25). -/
  host : List HostInput
  /-- MODEL's own: the index of the next free draw (log 34). -/
  draws : Nat
deriving DecidableEq, Repr

/-- No step of this machine stops the model with a fault: the spec's fatal errors are states (`RunState.faulted`, R303,
R304), so nothing raises one and the type has no constructor (log 8). -/
inductive Fault where
deriving DecidableEq, Repr

/-- Why the model gives something no meaning. -/
inductive Refusal where
  /-- Raised by an arm of `exec` whose instruction has no meaning yet; no arm is left. Safe. -/
  | notModelled (mnemonic : String)
  /-- Raised by `boot` alone, for a program image longer than 3584 bytes (R68, D7); no step raises it. Safe. -/
  | imageTooLong (length : Nat)
deriving DecidableEq, Repr

/-- The state after reset, before any image is loaded (R51, R330). -/
def State.reset : State where
  mem := []
  V := Vector.replicate 16 0x00#8
  I := 0x0000#16
  pc := BitVec.ofNat 16 Config.programBase
  sp := 0
  stack := Vector.replicate 16 0x0000#16
  DT := ⟨0x00#8, 0⟩
  ST := ⟨0x00#8, 0⟩
  fb := Vector.replicate 32 (Vector.replicate 64 false)
  latch := []
  quitReq := false
  run := .running
  presentCount := 0
  now := 0
  rand := 0x00#8
  host := []
  draws := 0

end Sys2Proof.Machine
end

