-- ==== Sys2Proof/Machine/Memory.lean ====
section
/-! DEFINITION. Memory as the list of cells that differ from the reset image (20_memory.md R80, R81; 10_state.md R51). -/
namespace Sys2Proof.Machine

/-- FONT: glyph g is the five bytes at 5g (R81, D4). Glyph 0 is the source's; PRESUMED: glyphs 1 to F are the standard
CHIP-8 font (95_test_vectors.md section F). Log 3. -/
def fontTable : List Byte :=
  [0xF0, 0x90, 0x90, 0x90, 0xF0,  0x20, 0x60, 0x20, 0x20, 0x70,  0xF0, 0x10, 0xF0, 0x80, 0xF0,  0xF0, 0x10, 0xF0, 0x10, 0xF0] ++
  [0x90, 0x90, 0xF0, 0x10, 0x10,  0xF0, 0x80, 0xF0, 0x10, 0xF0,  0xF0, 0x80, 0xF0, 0x90, 0xF0,  0xF0, 0x10, 0x20, 0x40, 0x40] ++
  [0xF0, 0x90, 0xF0, 0x90, 0xF0,  0xF0, 0x90, 0xF0, 0x10, 0xF0,  0xF0, 0x90, 0xF0, 0x90, 0x90,  0xE0, 0x90, 0xE0, 0x90, 0xE0] ++
  [0xF0, 0x80, 0x80, 0x80, 0xF0,  0xE0, 0x90, 0x90, 0x90, 0xE0,  0xF0, 0x80, 0xF0, 0x80, 0xF0,  0xF0, 0x80, 0xF0, 0x80, 0x80]

/-- What an address that no cell lists reads as: the reset image, the font at 0x000 to 0x04F and 0x00 elsewhere
(R51, R333, D3, D4). Log 2, 3. -/
def Memory.background (a : Nat) : Byte := fontTable.getD a 0x00#8

/-- The byte at `a`, before any bounds check. -/
def Memory.read : Memory → Nat → Byte
  | [], a => Memory.background a
  | (b, v) :: m, a => if a = b then v else Memory.read m a

/-- A cell for `a` in front of cells at higher addresses, left out when it says what the background says. -/
def Memory.cons (a : Nat) (v : Byte) (m : Memory) : Memory :=
  if v = Memory.background a then m else (a, v) :: m

/-- Set the byte at `a`, before any bounds check, keeping the canonical form. -/
def Memory.put : Memory → Nat → Byte → Memory
  | [], a, v => Memory.cons a v []
  | (b, w) :: m, a, v =>
    if a < b then Memory.cons a v ((b, w) :: m)
    else if a = b then Memory.cons a v m
    else (b, w) :: Memory.put m a v

/-- The canonical form: addresses strictly rising and inside the address space, and no cell equal to what its address
reads as unlisted. Log 31. -/
abbrev Memory.wf (m : Memory) : Prop :=
  m.Pairwise (fun c d => c.1 < d.1) ∧ ∀ c ∈ m, c.1 < Config.memSize ∧ c.2 ≠ Memory.background c.1

/-- `MemRead(addr, 1)` (R83): the byte, or `none` past the end. The address is a natural number, never wrapped (R85). -/
def Memory.load (m : Memory) (a : Nat) : Option Byte :=
  if a < Config.memSize then some (Memory.read m a) else none

/-- `MemWrite(addr, 1, v)` (R84): the memory with the byte written, or `none` past the end. -/
def Memory.store (m : Memory) (a : Nat) (v : Byte) : Option Memory :=
  if a < Config.memSize then some (Memory.put m a v) else none

/-- Read `n` bytes from `a` up, in ascending order (R90); the error is the first address past the end. -/
def Memory.loadRun (m : Memory) : Nat → Nat → Except Nat (List Byte)
  | _, 0 => .ok []
  | a, n + 1 =>
    match Memory.load m a with
    | none => .error a
    | some b =>
      match Memory.loadRun m (a + 1) n with
      | .ok bs => .ok (b :: bs)
      | .error e => .error e

/-- Write bytes from `a` up, in ascending order (R90); the error is the first address past the end. -/
def Memory.storeRun (m : Memory) : Nat → List Byte → Except Nat Memory
  | _, [] => .ok m
  | a, b :: bs =>
    match Memory.store m a b with
    | none => .error a
    | some m' => Memory.storeRun m' (a + 1) bs

/-- What a faulting run of `n` stores from `a` leaves: a free byte at each of its addresses inside memory (R304, D11).
Log 9. -/
def Memory.faultRun (m : Memory) (draw : Nat) : Nat → Nat → Memory
  | _, 0 => m
  | a, n + 1 =>
    Memory.faultRun (if a < Config.memSize then Memory.put m a (Config.faultByte draw a) else m) draw (a + 1) n

end Sys2Proof.Machine
end

