-- ==== Sys2Proof/Machine/Ops.lean ====
section
/-! DEFINITION. The operations the instructions share: registers, program counter, call stack, and the ways a run ends
(10_state.md, 40_step_cycle.md R157, 60_exceptions.md). -/
namespace Sys2Proof.Machine

/-- The result of a meaning or of a step. -/
abbrev Result := Host.Outcome State Fault Refusal

/-- Read `V[r]` (R10, R31). -/
def State.getV (s : State) (r : Reg) : Byte := s.V[r.val]

/-- `V[r] <- v` (R10, R31); no register is hardwired. -/
def State.setV (s : State) (r : Reg) (v : Byte) : State := { s with V := s.V.set r.val v }

/-- Write a result to `V[x]` and then a flag to VF (R190, D17): with x = F, VF ends as the flag. Log 14. -/
def State.setResultFlag (s : State) (x : Reg) (v flag : Byte) : State := (s.setV x v).setV VF flag

/-- `pc <- target` (R157). -/
def State.jump (s : State) (target : Word) : State := { s with pc := target }

/-- The outcome `advance`: `pc <- pc + 2` (R12, R157). -/
def State.advance (s : State) : State := s.jump (s.pc + 2)

/-- A skip passes over the next word: `pc <- pc + 4` if the condition holds, else `pc + 2` (R170). -/
def State.skipIf (s : State) (c : Bool) : State := if c then s.jump (s.pc + 4) else s.advance

/-- Push a return address; `none` with 16 entries in use (R39, R172). -/
def State.push (s : State) (v : Word) : Option State :=
  if h : s.sp.val < 16 then
    some { s with stack := s.stack.set s.sp.val v, sp := ⟨s.sp.val + 1, Nat.succ_lt_succ h⟩ }
  else none

/-- Pop a return address; `none` with no entry in use. The popped entry keeps its value (R39, R171, D16). -/
def State.pop (s : State) : Option (Word × State) :=
  match s.sp with
  | ⟨0, _⟩ => none
  | ⟨n + 1, h⟩ => some (s.stack[n]'(Nat.lt_of_succ_lt_succ h), { s with sp := ⟨n, Nat.lt_of_succ_lt h⟩ })

/-- `halt(reason)`: the run ends without error (R306). -/
def State.halt (s : State) (reason : HaltReason) : State := { s with run := .halted reason }

/-- Taking a fatal error, the one way every error is taken (R303, R304, R309): `run` becomes the fault record, `pc` is not
advanced, and nothing else changes here. There is no vector, saved status or return (R309). Log 8. -/
def State.raise (s : State) (kind : FaultKind) (word : Option Word) (what : Option FaultCause) : State :=
  { s with run := .faulted ⟨kind, word, s.pc, what⟩ }

/-- OutOfBoundsAccess raised by the instruction `i` (R302); its word is the one fetched, `encode i` (log 28). -/
def State.outOfBounds (s : State) (i : Instr) (what : FaultCause) : State :=
  s.raise .outOfBoundsAccess (some (encode i)) (some what)

/-- The first `n` registers V0 .. V(n-1), in order (R224). -/
def State.firstRegs (s : State) (n : Nat) : List Byte := s.V.toList.take n

/-- Load bytes into V0, V1, ... in order (R225). -/
def State.loadRegs (s : State) (bs : List Byte) : State :=
  { s with V := Vector.ofFn fun r : Fin 16 => bs.getD r.val (s.V[r.val]) }

/-- What a faulting LD Vx, [I] leaves: free values in V0 .. V(n-1) (R304, D11). Log 9. -/
def State.faultRegs (s : State) (n : Nat) : State :=
  { s with V := Vector.ofFn fun r : Fin 16 => if r.val < n then Config.faultReg s.draws r.val else s.V[r.val] }

end Sys2Proof.Machine
end

