-- ==== Sys2Proof/Machine/Flags.lean ====
section
/-! DEFINITION. The 8-bit results and the flags the ALU writes into VF (42_alu.md R190 to R203): computed on naturals and
narrowed at the end. -/
namespace Sys2Proof.Machine

/-- A flag as VF holds it: 0x01 or 0x00 (R197, R198, R246). -/
def flagByte (b : Bool) : Byte := if b then 0x01#8 else 0x00#8

/-- `trunc_8(a + b)` (R192, R197). -/
def addResult (a b : Byte) : Byte := BitVec.ofNat 8 (a.toNat + b.toNat)

/-- Carry: the 9-bit sum is 256 or more (R197). -/
def carryFlag (a b : Byte) : Bool := decide (256 ≤ a.toNat + b.toNat)

/-- `trunc_8(a + 256 - b)` (R198, R200). -/
def subResult (a b : Byte) : Byte := BitVec.ofNat 8 (a.toNat + 256 - b.toNat)

/-- No borrow: the minuend is strictly greater than the subtrahend (R198, R200). -/
def greaterFlag (a b : Byte) : Bool := decide (b.toNat < a.toNat)

/-- `a >> 1`, logical (R199). -/
def shrResult (a : Byte) : Byte := BitVec.ofNat 8 (a.toNat / 2)

/-- The bit SHR shifts out, the old bit 0 (R199). -/
def shrFlag (a : Byte) : Bool := a.getLsbD 0

/-- `trunc_8(a << 1)` (R201). -/
def shlResult (a : Byte) : Byte := BitVec.ofNat 8 (a.toNat * 2)

/-- The bit SHL shifts out, the old bit 7 (R201). -/
def shlFlag (a : Byte) : Bool := a.getLsbD 7

end Sys2Proof.Machine
end

