-- ==== Sys2Proof/Machine/Operands.lean ====
section
/-! DEFINITION. How operands become values: zero extension of addresses, effective addresses, the glyph address, BCD digits
and the drawing origin (30_encoding.md R112; 20_memory.md R85; 43_index_memory.md R222, R223; 44_framebuffer.md R246). -/
namespace Sys2Proof.Machine

/-- `zext_16(nnn)` (R112). -/
def addrOperand (nnn : BitVec 12) : Word := nnn.setWidth 16

/-- HALT_PC, "the maximum representable address" (R7, R179, D12). Log 10. -/
def haltPc : Word := 0xFFFF#16

/-- The target of JP V0, addr: `zext_16(nnn) + zext_16(V[0])`, not masked to 12 bits (R178, D14). Log 12. -/
def offsetTarget (nnn : BitVec 12) (v0 : Byte) : Word := nnn.setWidth 16 + v0.setWidth 16

/-- The effective address `I + k` as a natural number, with no wrap (R85). -/
def effAddr (s : State) (k : Nat) : Nat := s.I.toNat + k

/-- The sum of ADD I, Vx as a natural number (R221). -/
def indexSum (s : State) (x : Reg) : Nat := s.I.toNat + (s.getV x).toNat

/-- The address of glyph `g`: the whole register value times 5, unmasked, from FONT_BASE = 0 (R222, D22). Log 19. -/
def glyphAddr (g : Byte) : Word := g.setWidth 16 * 5

/-- The hundreds, tens and ones digits of a byte (R223). -/
def bcdDigits (v : Byte) : List Byte :=
  [BitVec.ofNat 8 (v.toNat / 100), BitVec.ofNat 8 (v.toNat / 10 % 10), BitVec.ofNat 8 (v.toNat % 10)]

/-- The column of a sprite's origin, wrapped once (R246). -/
def originX (v : Byte) : Nat := v.toNat % 64

/-- The row of a sprite's origin, wrapped once (R246). -/
def originY (v : Byte) : Nat := v.toNat % 32

end Sys2Proof.Machine
end

