-- ==== Sys2Proof/Machine/Alu.lean ====
section
/-! DEFINITION. Register arithmetic and logic (42_alu.md R190 to R203). All sources are read before anything is written. -/
namespace Sys2Proof.Machine

/-- LD Vx, byte (R191). -/
def execLdVxKk (x : Reg) (kk : Byte) (s : State) : Result := .next (s.setV x kk).advance

/-- ADD Vx, byte (R192): no flag. -/
def execAddVxKk (x : Reg) (kk : Byte) (s : State) : Result := .next (s.setV x (addResult (s.getV x) kk)).advance

/-- LD Vx, Vy (R193). -/
def execLdVxVy (x y : Reg) (s : State) : Result := .next (s.setV x (s.getV y)).advance

/-- OR Vx, Vy (R194): no flag (D18). -/
def execOr (x y : Reg) (s : State) : Result := .next (s.setV x (s.getV x ||| s.getV y)).advance

/-- AND Vx, Vy (R195): no flag (D18). -/
def execAnd (x y : Reg) (s : State) : Result := .next (s.setV x (s.getV x &&& s.getV y)).advance

/-- XOR Vx, Vy (R196): no flag (D18). -/
def execXor (x y : Reg) (s : State) : Result := .next (s.setV x (s.getV x ^^^ s.getV y)).advance

/-- ADD Vx, Vy (R197). -/
def execAddVxVy (x y : Reg) (s : State) : Result :=
  .next (s.setResultFlag x (addResult (s.getV x) (s.getV y)) (flagByte (carryFlag (s.getV x) (s.getV y)))).advance

/-- SUB Vx, Vy (R198). -/
def execSub (x y : Reg) (s : State) : Result :=
  .next (s.setResultFlag x (subResult (s.getV x) (s.getV y)) (flagByte (greaterFlag (s.getV x) (s.getV y)))).advance

/-- SHR Vx (R199); `y` is ignored (D19). -/
def execShr (x _y : Reg) (s : State) : Result :=
  .next (s.setResultFlag x (shrResult (s.getV x)) (flagByte (shrFlag (s.getV x)))).advance

/-- SUBN Vx, Vy (R200). -/
def execSubn (x y : Reg) (s : State) : Result :=
  .next (s.setResultFlag x (subResult (s.getV y) (s.getV x)) (flagByte (greaterFlag (s.getV y) (s.getV x)))).advance

/-- SHL Vx (R201); `y` is ignored (D19). -/
def execShl (x _y : Reg) (s : State) : Result :=
  .next (s.setResultFlag x (shlResult (s.getV x)) (flagByte (shlFlag (s.getV x)))).advance

/-- RND Vx, byte (R202): the step's random byte masked by `kk`. -/
def execRnd (x : Reg) (kk : Byte) (s : State) : Result := .next (s.setV x (s.rand &&& kk)).advance

end Sys2Proof.Machine
end

