-- ==== Sys2Proof/Machine/ControlFlow.lean ====
section
/-! DEFINITION. Control flow (41_control_flow.md R170 to R179). -/
namespace Sys2Proof.Machine

/-- RET (R171). -/
def execRet (s : State) : Result :=
  match s.pop with
  | none => .next (s.outOfBounds .ret .stackUnderflow)
  | some (target, s') => .next (s'.jump target)

/-- CALL addr (R172). -/
def execCall (nnn : BitVec 12) (s : State) : Result :=
  match s.push (s.pc + 2) with
  | none => .next (s.outOfBounds (.call nnn) .stackOverflow)
  | some s' => .next (s'.jump (addrOperand nnn))

/-- JP addr (R173). -/
def execJp (nnn : BitVec 12) (s : State) : Result := .next (s.jump (addrOperand nnn))

/-- SE Vx, byte (R174). -/
def execSeVxKk (x : Reg) (kk : Byte) (s : State) : Result := .next (s.skipIf (s.getV x == kk))

/-- SNE Vx, byte (R175). -/
def execSneVxKk (x : Reg) (kk : Byte) (s : State) : Result := .next (s.skipIf (s.getV x != kk))

/-- SE Vx, Vy (R176). -/
def execSeVxVy (x y : Reg) (s : State) : Result := .next (s.skipIf (s.getV x == s.getV y))

/-- SNE Vx, Vy (R177). -/
def execSneVxVy (x y : Reg) (s : State) : Result := .next (s.skipIf (s.getV x != s.getV y))

/-- JP V0, addr (R178). -/
def execJpV0 (nnn : BitVec 12) (s : State) : Result := .next (s.jump (offsetTarget nnn (s.getV 0)))

/-- HALT (R179); `nnn` is ignored. -/
def execHalt (_nnn : BitVec 12) (s : State) : Result := .next ((s.jump haltPc).halt .sentinel)

end Sys2Proof.Machine
end

