-- ==== Sys2Proof/Machine/Engine.lean ====
section
/-! DEFINITION. The framebuffer engine: `fb_clear`, `xor_write`, `collision_detect` and `present` (44_framebuffer.md R240 to
R244), and the sprite loops of DRW built from them (R246, R247). -/
namespace Sys2Proof.Machine

/-- `fb_clear()` (R241): every pixel off. -/
def fbClear : Framebuffer := Vector.replicate 32 (Vector.replicate 64 false)

/-- The pixel (x, y), stored as `fb[y][x]` (R44). -/
def Framebuffer.pixel (fb : Framebuffer) (x : Fin 64) (y : Fin 32) : Bool := (fb[y.val])[x.val]

/-- Set the pixel (x, y). -/
def Framebuffer.plot (fb : Framebuffer) (x : Fin 64) (y : Fin 32) (on : Bool) : Framebuffer :=
  fb.set y.val ((fb[y.val]).set x.val on)

/-- `xor_write(x, y, on) -> collided` (R242). With `on` the pixel toggles, and a set pixel turned off is a collision;
without it the pixel stays and the result is false (D26, log 23). -/
def Framebuffer.xorWrite (fb : Framebuffer) (x : Fin 64) (y : Fin 32) (on : Bool) : Framebuffer × Bool :=
  if on then (fb.plot x y (!fb.pixel x y), fb.pixel x y) else (fb, false)

/-- A drawing under way: the framebuffer and the OR of the collisions so far, `collision_detect` (R244). -/
abbrev Drawing := Framebuffer × Bool

/-- One sprite bit at column `px`, row `py`: a clear bit calls nothing, and a pixel past an edge is clipped, not wrapped
(R246). -/
def drawBit (px py : Nat) (on : Bool) (d : Drawing) : Drawing :=
  if on then
    if h : px < 64 ∧ py < 32 then
      ((d.1.xorWrite ⟨px, h.1⟩ ⟨py, h.2⟩ true).1, d.2 || (d.1.xorWrite ⟨px, h.1⟩ ⟨py, h.2⟩ true).2)
    else d
  else d

/-- The columns `c`, `c` + 1, ... of a sprite row, for `k` columns; bit 7 - c of the byte is column c (R246, R247). -/
def drawCols (x0 py : Nat) (b : Byte) : Nat → Nat → Drawing → Drawing
  | _, 0, d => d
  | c, k + 1, d => drawCols x0 py b (c + 1) k (drawBit (x0 + c) py (b.getLsbD (7 - c)) d)

/-- The rows of a sprite from row `py` down, eight columns each (R246). -/
def drawRows (x0 : Nat) : Nat → List Byte → Drawing → Drawing
  | _, [], d => d
  | py, b :: bs, d => drawRows x0 (py + 1) bs (drawCols x0 py b 0 8 d)

/-- `present()` (R243): one more signal. -/
def State.present (s : State) : State := { s with presentCount := s.presentCount + 1 }

/-- The pixel (x, y) is in the box of a sprite of `n` rows at (x0, y0). -/
def inSpriteBox (x0 y0 n x y : Nat) : Bool := decide (x0 ≤ x ∧ x < x0 + 8 ∧ y0 ≤ y ∧ y < y0 + n)

/-- What a faulting DRW leaves: free pixels inside the sprite's box, a free VF and a free `present_count`
(R304, D11; 95_test_vectors.md T-FB-9). Log 9. -/
def State.faultDraw (s : State) (x0 y0 n : Nat) : State :=
  { s with
    V := (s.setV VF (Config.faultReg s.draws VF.val)).V
    fb := Vector.ofFn fun y : Fin 32 => Vector.ofFn fun x : Fin 64 =>
      if inSpriteBox x0 y0 n x.val y.val then Config.faultPixel s.draws x.val y.val else s.fb.pixel x y
    presentCount := Config.faultPresent s.draws }

end Sys2Proof.Machine
end

