-- ==== Sys2Proof/Machine/Display.lean ====
section
/-! DEFINITION. CLS and DRW (44_framebuffer.md R245 to R248). -/
namespace Sys2Proof.Machine

/-- CLS (R245): no `present` (D24). -/
def execCls (s : State) : Result := .next { s with fb := fbClear }.advance

/-- The picture a DRW makes of the sprite bytes `bs`, its origin read from V[x] and V[y] (R246). -/
def drawSprite (x y : Reg) (bs : List Byte) (s : State) : Drawing :=
  drawRows (originX (s.getV x)) (originY (s.getV y)) bs (s.fb, false)

/-- DRW Vx, Vy, n (R246, R248): all n rows are read, then drawn; VF is written after all pixels; then `present`. -/
def execDrw (x y : Reg) (n : Fin 16) (s : State) : Result :=
  match s.mem.loadRun (effAddr s 0) n.val with
  | .ok bs =>
    .next (({ s with fb := (drawSprite x y bs s).1 }.setV VF (flagByte (drawSprite x y bs s).2)).present.advance)
  | .error a =>
    .next ((s.faultDraw (originX (s.getV x)) (originY (s.getV y)) n.val).outOfBounds (.drw x y n) (.memoryRead a))

end Sys2Proof.Machine
end

