-- ==== Sys2Proof/Machine/IndexMemory.lean ====
section
/-! DEFINITION. The index register and memory transfers (43_index_memory.md R220 to R225). -/
namespace Sys2Proof.Machine

/-- LD I, addr (R220). -/
def execLdI (nnn : BitVec 12) (s : State) : Result := .next { s with I := addrOperand nnn }.advance

/-- ADD I, Vx (R221): no flag; a sum over 0xFFFF raises (D21). -/
def execAddIVx (x : Reg) (s : State) : Result :=
  if 0xFFFF < indexSum s x then .next (s.outOfBounds (.addIVx x) .indexOverflow)
  else .next { s with I := BitVec.ofNat 16 (indexSum s x) }.advance

/-- LD F, Vx (R222). -/
def execLdFVx (x : Reg) (s : State) : Result := .next { s with I := glyphAddr (s.getV x) }.advance

/-- Store bytes at I, I + 1, ... for the instruction `i` (R84, R90); a fault leaves the addresses in range free (R304). -/
def storeAtIndex (i : Instr) (bs : List Byte) (s : State) : Result :=
  match s.mem.storeRun (effAddr s 0) bs with
  | .ok m => .next { s with mem := m }.advance
  | .error a =>
    .next ({ s with mem := s.mem.faultRun s.draws (effAddr s 0) bs.length }.outOfBounds i (.memoryWrite a))

/-- LD B, Vx (R223). -/
def execLdBVx (x : Reg) (s : State) : Result := storeAtIndex (.ldBVx x) (bcdDigits (s.getV x)) s

/-- LD [I], Vx (R224): V0 to Vx; I is unchanged (D23). -/
def execLdMemVx (x : Reg) (s : State) : Result := storeAtIndex (.ldMemVx x) (s.firstRegs (x.val + 1)) s

/-- LD Vx, [I] (R225): V0 to Vx; I is unchanged (D23). -/
def execLdVxMem (x : Reg) (s : State) : Result :=
  match s.mem.loadRun (effAddr s 0) (x.val + 1) with
  | .ok bs => .next (s.loadRegs bs).advance
  | .error a => .next ((s.faultRegs (x.val + 1)).outOfBounds (.ldVxMem x) (.memoryRead a))

end Sys2Proof.Machine
end

