-- ==== Sys2Proof/Machine/Latch.lean ====
section
/-! DEFINITION. The input latch as the core uses it (46_input.md R280 to R282). -/
namespace Sys2Proof.Machine

/-- `last(latch)`: the most recently latched key, or none (R281). -/
def State.lastKey (s : State) : Option KeyCode := s.latch.getLast?

/-- `latch_clear()` (R282). -/
def State.latchClear (s : State) : State := { s with latch := [] }

/-- A key code as a register holds it. -/
def keyByte (k : KeyCode) : Byte := BitVec.ofNat 8 k.val

/-- `last(latch) == some(V[x])` (R283, R284): a value of 0x10 or more never matches, an empty latch never matches. -/
def State.keyMatches (s : State) (x : Reg) : Bool := s.lastKey.map keyByte == some (s.getV x)

end Sys2Proof.Machine
end

