-- ==== Sys2Proof/Machine/Keys.lean ====
section
/-! DEFINITION. The key instructions (46_input.md R283 to R285). -/
namespace Sys2Proof.Machine

/-- SKP Vx (R283): a match empties the latch and skips (D31). -/
def execSkp (x : Reg) (s : State) : Result :=
  if s.keyMatches x then .next (s.latchClear.skipIf true) else .next (s.skipIf false)

/-- SKNP Vx (R284): a match empties the latch and does not skip; no match skips. Not a clean negation of SKP (U4). -/
def execSknp (x : Reg) (s : State) : Result :=
  if s.keyMatches x then .next (s.latchClear.skipIf false) else .next (s.skipIf true)

/-- LD Vx, K (R285): wait at this pc until a key is latched (R159), then take the last one and empty the latch (D32). -/
def execLdVxK (x : Reg) (s : State) : Result :=
  match s.lastKey with
  | none => .next (s.jump s.pc)
  | some k => .next (s.setV x (keyByte k)).latchClear.advance

end Sys2Proof.Machine
end

