-- ==== Sys2Proof/Machine/Timer.lean ====
section
/-! DEFINITION. The countdown timer (45_timers.md R260 to R263), used alike for DT and ST. -/
namespace Sys2Proof.Machine

/-- At least 1/60 second has passed since `ref`, compared exactly (R260, D27). -/
def Timer.due (t : Timer) (now : Time) : Bool := decide (1 ≤ (now - t.ref) * 60)

/-- `tick` (R260): a nonzero due timer loses one and restarts from `now`; otherwise nothing changes. Never more than one
a call and never below zero (R263). -/
def Timer.tick (t : Timer) (now : Time) : Timer :=
  if t.value = 0 then t
  else if t.due now then ⟨t.value - 1, now⟩
  else t

/-- `set` (R261): the value, and the reference to `now`. -/
def Timer.set (v : Byte) (now : Time) : Timer := ⟨v, now⟩

/-- `get` (R262). -/
def Timer.get (t : Timer) : Byte := t.value

/-- The tick phase of a step: DT once and ST once, with the step's `now` (R154). -/
def State.tickTimers (s : State) : State := { s with DT := s.DT.tick s.now, ST := s.ST.tick s.now }

end Sys2Proof.Machine
end

