-- ==== Sys2Proof/Machine/TimerTransfers.lean ====
section
/-! DEFINITION. The timer instructions (45_timers.md R264 to R266). -/
namespace Sys2Proof.Machine

/-- LD Vx, DT (R264): the value after this step's tick. -/
def execLdVxDt (x : Reg) (s : State) : Result := .next (s.setV x s.DT.get).advance

/-- LD DT, Vx (R265). -/
def execLdDtVx (x : Reg) (s : State) : Result := .next { s with DT := Timer.set (s.getV x) s.now }.advance

/-- LD ST, Vx (R266). -/
def execLdStVx (x : Reg) (s : State) : Result := .next { s with ST := Timer.set (s.getV x) s.now }.advance

end Sys2Proof.Machine
end

