-- ==== Sys2Proof/Machine/Ports.lean ====
section
/-! DEFINITION. The ports of the block and the host behind them (10_state.md R60 to R69). -/
namespace Sys2Proof.Machine

/-- The later of two times: successive values of `now` are non-decreasing (R65). -/
def laterTime (a b : Time) : Time := if a ≤ b then b else a

/-- What the host does between two steps and supplies to the next one (R63, R65, R66, R67). It appends key codes to the
latch and may raise quit, and never removes or clears; `now` and `rand` are sampled. With no entry left it presses and
quits nothing, and the time and the random byte are free (log 24, 25). -/
def State.hostActs (s : State) : State :=
  match s.host with
  | [] =>
    { s with
      now := laterTime s.now (Config.hostNow s.draws)
      rand := Config.hostRand s.draws
      draws := s.draws + 1 }
  | h :: rest =>
    { s with
      latch := s.latch ++ h.keys
      quitReq := s.quitReq || h.quit
      now := laterTime s.now h.now
      rand := h.rand
      host := rest }

/-- Copy bytes verbatim from `a` up (R68). -/
def Memory.fill (m : Memory) : Nat → List Byte → Memory
  | _, [] => m
  | a, b :: bs => Memory.fill (Memory.put m a b) (a + 1) bs

/-- The `load` port with reset before it (R68, R330, R332): the image at 0x200, or a refusal when it is longer than 3584
bytes (D7). This is how a program comes to run from reset (log 32). -/
def boot (image : List Byte) : Result :=
  if image.length ≤ Config.maxProgram then
    .next { State.reset with mem := Memory.fill [] Config.programBase image }
  else .refused (.imageTooLong image.length)

/-- The output `sound_on` (R43, R64, R267). -/
def State.soundOn (s : State) : Bool := s.ST.value != 0

/-- The output `fb_out` (R62). -/
def State.fbOut (s : State) : Framebuffer := s.fb

/-- The output `status` (R69). -/
def State.status (s : State) : RunState := s.run

end Sys2Proof.Machine
end

