-- ==== Sys2Proof/Machine/Cycle.lean ====
section
/-! DEFINITION. The step cycle (40_step_cycle.md R150 to R158), with `now` and `rand` already in their ports. -/
namespace Sys2Proof.Machine

/-- `fetch(pc)` (R153): the big-endian word at pc, or `none` when its second byte is past the end. -/
def State.fetch (s : State) : Option Word :=
  match s.mem.load s.pc.toNat, s.mem.load (s.pc.toNat + 1) with
  | some hi, some lo => some (wordOfBytes hi lo)
  | _, _ => none

/-- Fetch, decode and execute, in a state whose timers have ticked (R153, R155, R156). -/
def State.runInstr (s : State) : Result :=
  match s.fetch with
  | none => .next (s.raise .outOfBoundsAccess none (some .instructionFetch))
  | some w =>
    match decodeWord w with
    | .error _ => .next (s.raise .invalidOpcode (some w) none)
    | .ok i => exec i s

/-- `step(now, rand)` (R150): an ended run stays (R151), then the boundary halts, quit first (R152), then the tick, the
fetch, the decode and the instruction (R305). -/
def State.cycle (s : State) : Result :=
  match s.run with
  | .halted _ | .faulted _ => .next s
  | .running =>
    if s.quitReq then .next (s.halt .quit)
    else if Config.memSize ≤ s.pc.toNat then .next (s.halt .pcOutOfRange)
    else s.tickTimers.runInstr

/-- One request of the host (R61, R66): in a running core, what the host did since the last step, then the cycle; in an
ended one, nothing (R151). -/
def State.request (s : State) : Result :=
  match s.run with
  | .halted _ | .faulted _ => .next s
  | .running => s.hostActs.cycle

/-- The `host` list with no quit in its next entry. -/
def withoutQuit : List HostInput → List HostInput
  | [] => []
  | h :: rest => { h with quit := false } :: rest

/-- The `pc` from which a whole word can be fetched: the state's own, or the entry point where it cannot (R153). -/
def fetchablePc (s : State) : Word :=
  if s.pc.toNat + 1 < Config.memSize then s.pc else BitVec.ofNat 16 Config.programBase

/-- `s` with a word where the next step fetches, and nothing left that would keep the step from fetching it: the run is
Running, no quit stands or is about to, and `pc` is in range. Log 33. -/
def State.placeWord (s : State) (w : Word) : State :=
  { s with
    mem := Memory.put (Memory.put s.mem (fetchablePc s).toNat (hiByte w)) ((fetchablePc s).toNat + 1) (loByte w)
    pc := fetchablePc s
    run := .running
    quitReq := false
    host := withoutQuit s.host }

end Sys2Proof.Machine
end

