-- ==== Sys2Proof/Machine/Step.lean ====
section
/-! DEFINITION. The step, and the state in which a given word is the next instruction. -/
namespace Sys2Proof.Machine

/-- One step of the core (R61, R150, R158). -/
def step (s : State) : Host.Outcome State Fault Refusal := s.request

/-- `s` with the instruction of a table row's bits where `step` fetches next. -/
def State.withFetchWord (s : State) (nbits w : Nat) : State := s.placeWord (tableWord nbits w)

end Sys2Proof.Machine
end

