-- ==== Sys2Proof/Safety.lean ====
section
/-! DEFINITION. The terms the statements use: how a run ends, what an instruction may read and write, when it raises, and
the invariant of the machine. -/
namespace Sys2Proof.Machine

/-- The run has ended (R307). -/
def State.ended (s : State) : Prop := s.run ≠ .running

/-- The run has ended well, for any reason (R307). -/
def State.endedWell (s : State) : Prop := ∃ reason, s.run = .halted reason

/-- The run has ended badly (R307). -/
def State.endedBadly (s : State) : Prop := ∃ record, s.run = .faulted record

/-- A run of the core that no number of steps ends badly. -/
def State.safe (s : State) : Prop := ∀ k t, Sys2Proof.core.run k s = .next t → ¬ t.endedBadly

/-- The instructions that write a flag into VF: ADD Vx, Vy; SUB; SUBN; SHR; SHL and DRW (R32). -/
def writesFlag : Instr → Bool
  | .addVxVy _ _ | .sub _ _ | .subn _ _ | .shr _ _ | .shl _ _ | .drw _ _ _ => true
  | .cls | .ret | .halt _ | .jp _ | .call _ | .seVxKk _ _ | .sneVxKk _ _ | .seVxVy _ _ | .ldVxKk _ _ | .addVxKk _ _
  | .ldVxVy _ _ | .or _ _ | .and _ _ | .xor _ _ | .sneVxVy _ _ | .ldI _ | .jpV0 _ | .rnd _ _ | .skp _ | .sknp _
  | .ldVxDt _ | .ldVxK _ | .ldDtVx _ | .ldStVx _ | .addIVx _ | .ldFVx _ | .ldBVx _ | .ldMemVx _ | .ldVxMem _ => false

/-- The V registers an instruction writes: the last column of the table of R33. -/
def writesReg : Instr → Reg → Bool
  | .ldVxKk x _, r | .addVxKk x _, r | .ldVxVy x _, r | .or x _, r | .and x _, r | .xor x _, r | .rnd x _, r
  | .ldVxDt x, r | .ldVxK x, r => r == x
  | .addVxVy x _, r | .sub x _, r | .subn x _, r | .shr x _, r | .shl x _, r => r == x || r == VF
  | .drw _ _ _, r => r == VF
  | .ldVxMem x, r => decide (r ≤ x)
  | .cls, _ | .ret, _ | .halt _, _ | .jp _, _ | .call _, _ | .seVxKk _ _, _ | .sneVxKk _ _, _ | .seVxVy _ _, _
  | .sneVxVy _ _, _ | .ldI _, _ | .jpV0 _, _ | .skp _, _ | .sknp _, _ | .ldDtVx _, _ | .ldStVx _, _ | .addIVx _, _
  | .ldFVx _, _ | .ldBVx _, _ | .ldMemVx _, _ => false

/-- The V registers an instruction reads: the middle column of the table of R33. -/
def readsReg : Instr → Reg → Bool
  | .seVxKk x _, r | .sneVxKk x _, r | .addVxKk x _, r | .shr x _, r | .shl x _, r | .skp x, r | .sknp x, r
  | .ldDtVx x, r | .ldStVx x, r | .addIVx x, r | .ldFVx x, r | .ldBVx x, r => r == x
  | .seVxVy x y, r | .sneVxVy x y, r | .or x y, r | .and x y, r | .xor x y, r | .addVxVy x y, r | .sub x y, r
  | .subn x y, r | .drw x y _, r => r == x || r == y
  | .ldVxVy _ y, r => r == y
  | .jpV0 _, r => r == 0
  | .ldMemVx x, r => decide (r ≤ x)
  | .cls, _ | .ret, _ | .halt _, _ | .jp _, _ | .call _, _ | .ldVxKk _ _, _ | .ldI _, _ | .rnd _ _, _ | .ldVxDt _, _
  | .ldVxK _, _ | .ldVxMem _, _ => false

/-- The condition of the instruction's own row in the table of R302, in the state in which it executes. -/
def outOfBoundsRow : Instr → State → Bool
  | .drw _ _ n, s => decide (1 ≤ n.val ∧ Config.memSize ≤ effAddr s (n.val - 1))
  | .ldVxMem x, s | .ldMemVx x, s => decide (Config.memSize ≤ effAddr s x.val)
  | .ldBVx _, s => decide (Config.memSize ≤ effAddr s 2)
  | .call _, s => decide (s.sp.val = 16)
  | .ret, s => decide (s.sp.val = 0)
  | .addIVx x, s => decide (0xFFFF < indexSum s x)
  | .cls, _ | .halt _, _ | .jp _, _ | .seVxKk _ _, _ | .sneVxKk _ _, _ | .seVxVy _ _, _ | .ldVxKk _ _, _
  | .addVxKk _ _, _ | .ldVxVy _ _, _ | .or _ _, _ | .and _ _, _ | .xor _ _, _ | .addVxVy _ _, _ | .sub _ _, _
  | .shr _ _, _ | .subn _ _, _ | .shl _ _, _ | .sneVxVy _ _, _ | .ldI _, _ | .jpV0 _, _ | .rnd _ _, _ | .skp _, _
  | .sknp _, _ | .ldVxDt _, _ | .ldVxK _, _ | .ldDtVx _, _ | .ldStVx _, _ | .ldFVx _, _ => false

/-- The program counters an instruction that completes may leave: the table of R160. -/
def pcOutcomes : Instr → State → List Word
  | .seVxKk _ _, s | .sneVxKk _ _, s | .seVxVy _ _, s | .sneVxVy _ _, s | .skp _, s | .sknp _, s => [s.pc + 2, s.pc + 4]
  | .ldVxK _, s => [s.pc, s.pc + 2]
  | .jp nnn, _ | .call nnn, _ => [nnn.setWidth 16]
  | .ret, s => [s.stack.toList.getD (s.sp.val - 1) 0]
  | .jpV0 nnn, s => [nnn.setWidth 16 + (s.getV 0).setWidth 16]
  | .halt _, _ => [0xFFFF#16]
  | .cls, s | .ldVxKk _ _, s | .addVxKk _ _, s | .ldVxVy _ _, s | .or _ _, s | .and _ _, s | .xor _ _, s
  | .addVxVy _ _, s | .sub _ _, s | .shr _ _, s | .subn _ _, s | .shl _ _, s | .ldI _, s | .rnd _ _, s | .drw _ _ _, s
  | .ldVxDt _, s | .ldDtVx _, s | .ldStVx _, s | .addIVx _, s | .ldFVx _, s | .ldBVx _, s | .ldMemVx _, s
  | .ldVxMem _, s => [s.pc + 2]

/-- The bit a sprite of `n` rows at I with origin (x0, y0) asks for at the pixel (x, y): clipped at the edges, bit 7 of a
row leftmost, rows read from memory at I + row (R246, R247). -/
def spriteBit (s : State) (x0 y0 n : Nat) (x : Fin 64) (y : Fin 32) : Bool :=
  inSpriteBox x0 y0 n x.val y.val && (Memory.read s.mem (effAddr s (y.val - y0))).getLsbD (7 - (x.val - x0))

/-- Some pixel is on that the sprite bit there turns off (R244). -/
def spriteCollides (s : State) (x0 y0 n : Nat) : Prop :=
  ∃ x y, spriteBit s x0 y0 n x y = true ∧ s.fb.pixel x y = true

/-- The most recently latched key is the value of V[x] (R283, R284). -/
def keyIs (s : State) (x : Reg) : Prop := ∃ k : KeyCode, s.latch.getLast? = some k ∧ k.val = (s.getV x).toNat

/-- The invariant of the machine: what every state a run can reach satisfies. -/
structure State.Inv (s : State) : Prop where
  /-- Memory is in its canonical form inside 0x000 to 0xFFF (R80, log 31). -/
  memCanonical : Memory.wf s.mem
  /-- A stack entry is a return address, at most 0x1000 (R40). -/
  stackBound : ∀ j : Fin 16, (s.stack[j.val]).toNat ≤ 0x1000
  /-- While the core runs, no instruction has left a pc above 0x10FE (R37). -/
  pcBound : s.run = .running → s.pc.toNat ≤ 0x10FE
  /-- What each halt leaves in pc (R306). -/
  sentinelPc : s.run = .halted .sentinel → s.pc = 0xFFFF#16
  rangePc : s.run = .halted .pcOutOfRange → 0x1000 ≤ s.pc.toNat
  quitSeen : s.run = .halted .quit → s.quitReq = true
  /-- The fault record names the instruction at pc, inside memory; its word is missing only for the fetch at 0xFFF
  (R303, R153). -/
  recordPc : ∀ r, s.run = .faulted r → r.pc = s.pc ∧ r.pc.toNat ≤ 0xFFF ∧ (r.word = none ↔ r.pc = 0x0FFF#16)
  /-- A timer's reference is never later than the present (R42, R65). -/
  delayRef : s.DT.ref ≤ s.now
  soundRef : s.ST.ref ≤ s.now

end Sys2Proof.Machine
end

