-- ==== Sys2Proof/Certificates/Slice0/Obligations.lean ====
section
/-! DEFINITION. The statements for the provers, from the numbered rules of spec/. Where a statement rests on a choice the spec
itself marks as a decision D<n>, its docstring says so. A frame is written as a record update: `t = { s with V := t.V, pc := … }`
says that every field but those named is unchanged. -/

open Sys2Proof Sys2Proof.Machine

/-! ## Encoding -/

/-- R113: the source's four words, as bytes and as words, their fields, and the operations they decode to. -/
def Obligations.SourceWordsDecode : Prop :=
  (decode [0x00#8, 0xE0#8] = .ok (.cls, []) ∧ decodeWord 0x00E0#16 = .ok .cls ∧
    opField 0x00E0#16 = 0x0 ∧ nnnField 0x00E0#16 = 0x0E0#12) ∧
  (decode [0x60#8, 0x05#8] = .ok (.ldVxKk 0 0x05#8, []) ∧ decodeWord 0x6005#16 = .ok (.ldVxKk 0 0x05#8) ∧
    opField 0x6005#16 = 0x6 ∧ xField 0x6005#16 = 0 ∧ kkField 0x6005#16 = 0x05#8) ∧
  (decode [0xA0#8, 0x00#8] = .ok (.ldI 0x000#12, []) ∧ decodeWord 0xA000#16 = .ok (.ldI 0x000#12) ∧
    opField 0xA000#16 = 0xA ∧ nnnField 0xA000#16 = 0x000#12) ∧
  (decode [0xD0#8, 0x05#8] = .ok (.drw 0 0 5, []) ∧ decodeWord 0xD005#16 = .ok (.drw 0 0 5) ∧
    opField 0xD005#16 = 0xD ∧ xField 0xD005#16 = 0 ∧ yField 0xD005#16 = 0 ∧ nField 0xD005#16 = 5)

/-- Words written out from the opcode map (R115; 95_test_vectors.md T-DEC-1, 2 and 4), one or more of every family. The
patterns beyond the source's four are the spec's general knowledge (log 7). -/
def Obligations.WrittenWordsDecode : Prop :=
  decodeWord 0x00EE#16 = .ok .ret ∧ decodeWord 0x0E0E#16 = .ok (.halt 0xE0E#12) ∧
  decodeWord 0xB123#16 = .ok (.jpV0 0x123#12) ∧ decodeWord 0x3FFF#16 = .ok (.seVxKk 15 0xFF#8) ∧
  decodeWord 0x9AB0#16 = .ok (.sneVxVy 10 11) ∧ decodeWord 0x8AB4#16 = .ok (.addVxVy 10 11) ∧
  decodeWord 0x8E16#16 = .ok (.shr 14 1) ∧ decodeWord 0x8127#16 = .ok (.subn 1 2) ∧
  decodeWord 0xC40F#16 = .ok (.rnd 4 0x0F#8) ∧ decodeWord 0xF265#16 = .ok (.ldVxMem 2) ∧
  decodeWord 0xF333#16 = .ok (.ldBVx 3) ∧ decodeWord 0xD7A3#16 = .ok (.drw 7 10 3) ∧
  decodeWord 0xF215#16 = .ok (.ldDtVx 2) ∧ decodeWord 0xE1A1#16 = .ok (.sknp 1) ∧
  decodeWord 0xF10A#16 = .ok (.ldVxK 1) ∧ decodeWord 0x5121#16 = .error (.invalidOpcode 0x5121#16)

/-- R121: each form assembles to one word, which disassembles to it. Every operand at every value the encoding admits. -/
def Obligations.DecodeInvertsEncode : Prop :=
  ∀ i : Instr, i.wf = true →
    decodeWord (encode i) = .ok i ∧ ∀ rest, decode (encodeBytes i ++ rest) = .ok (i, rest)

/-- R119, R121: each word that decodes is the word of the instruction it decodes to, and that instruction is well-formed. -/
def Obligations.EncodeInvertsDecode : Prop :=
  ∀ (w : Word) (i : Instr), decodeWord w = .ok i → encode i = w ∧ i.wf = true

/-- R118 (with D8, the spec's decision, for 5xyN and 9xyN): the words of no operation, by their nibbles; every other word
has one. -/
def Obligations.InvalidWordsExactly : Prop :=
  ∀ w : Word,
    let op := w.extractLsb' 12 4
    let n := w.extractLsb' 0 4
    let kk := w.extractLsb' 0 8
    let invalid : Prop :=
      (op = 0x5#4 ∧ n ≠ 0x0#4) ∨
      (op = 0x8#4 ∧ n ∈ [0x8#4, 0x9#4, 0xA#4, 0xB#4, 0xC#4, 0xD#4, 0xF#4]) ∨
      (op = 0x9#4 ∧ n ≠ 0x0#4) ∨
      (op = 0xE#4 ∧ kk ∉ [0x9E#8, 0xA1#8]) ∨
      (op = 0xF#4 ∧ kk ∉ [0x07#8, 0x0A#8, 0x15#8, 0x18#8, 0x1E#8, 0x29#8, 0x33#8, 0x55#8, 0x65#8])
    (decodeWord w = .error (.invalidOpcode w) ↔ invalid) ∧ ((∃ i, decodeWord w = .ok i) ↔ ¬ invalid)

/-- R117: HALT is every word with op = 0 but 0x00E0 and 0x00EE: 4094 words, 0x0000 among them. -/
def Obligations.HaltWordsExactly : Prop :=
  (∀ w : Word, (∃ nnn, decodeWord w = .ok (.halt nnn)) ↔
    w.extractLsb' 12 4 = 0x0#4 ∧ w ≠ 0x00E0#16 ∧ w ≠ 0x00EE#16) ∧
  decodeWord 0x0000#16 = .ok (.halt 0x000#12) ∧
  (List.range 0x1000).countP (fun k =>
    match decodeWord (BitVec.ofNat 16 k) with
    | .ok (.halt _) => true
    | _ => false) = 4094

/-! ## Control flow -/

/-- R173: JP sets pc to the zero-extended address and nothing else. -/
def Obligations.JumpSetsPc : Prop :=
  ∀ (s : State) (nnn : BitVec 12), exec (.jp nnn) s = .next { s with pc := nnn.setWidth 16 }

/-- JP V0 (R178) adds V0 on 16 bits; that the sum is not masked to 12 bits is the spec's decision D14 (log 12). -/
def Obligations.OffsetJumpSetsPc : Prop :=
  ∀ (s : State) (nnn : BitVec 12), ∃ t, exec (.jpV0 nnn) s = .next t ∧
    t.pc.toNat = nnn.toNat + (s.getV 0).toNat ∧ t.pc.toNat ≤ 0x10FE ∧ t = { s with pc := t.pc }

/-- R174, R175: the immediate skips. -/
def Obligations.ImmediateSkips : Prop :=
  ∀ (s : State) (x : Reg) (kk : Byte),
    exec (.seVxKk x kk) s = .next { s with pc := if s.getV x = kk then s.pc + 4 else s.pc + 2 } ∧
    exec (.sneVxKk x kk) s = .next { s with pc := if s.getV x ≠ kk then s.pc + 4 else s.pc + 2 }

/-- The register skips of R176 and R177, and with x = y: SE always skips, SNE never does. -/
def Obligations.RegisterSkips : Prop :=
  ∀ (s : State) (x y : Reg),
    exec (.seVxVy x y) s = .next { s with pc := if s.getV x = s.getV y then s.pc + 4 else s.pc + 2 } ∧
    exec (.sneVxVy x y) s = .next { s with pc := if s.getV x ≠ s.getV y then s.pc + 4 else s.pc + 2 } ∧
    exec (.seVxVy x x) s = .next { s with pc := s.pc + 4 } ∧
    exec (.sneVxVy x x) s = .next { s with pc := s.pc + 2 }

/-- R172: CALL pushes pc + 2 and jumps; with 16 entries in use it raises OutOfBoundsAccess and changes nothing else. -/
def Obligations.CallPushes : Prop :=
  ∀ (s : State) (nnn : BitVec 12),
    (s.sp.val < 16 → ∃ t, exec (.call nnn) s = .next t ∧ t.sp.val = s.sp.val + 1 ∧
      (∀ j : Fin 16, t.stack[j.val] = if j.val = s.sp.val then s.pc + 2 else s.stack[j.val]) ∧
      t.pc = nnn.setWidth 16 ∧ t = { s with sp := t.sp, stack := t.stack, pc := t.pc }) ∧
    (s.sp.val = 16 → exec (.call nnn) s = .next { s with
      run := .faulted ⟨.outOfBoundsAccess, some (encode (.call nnn)), s.pc, some .stackOverflow⟩ })

/-- RET (R171) pops the top entry into pc and keeps it in the array (D16); on an empty stack it raises (D15, C2), and
nothing else changes. -/
def Obligations.ReturnPops : Prop :=
  ∀ s : State,
    (∀ n : Fin 16, s.sp.val = n.val + 1 → ∃ t, exec .ret s = .next t ∧ t.sp.val = n.val ∧
      t.pc = s.stack[n.val] ∧ t = { s with sp := t.sp, pc := t.pc }) ∧
    (s.sp.val = 0 → exec .ret s = .next { s with
      run := .faulted ⟨.outOfBoundsAccess, some 0x00EE#16, s.pc, some .stackUnderflow⟩ })

/-- R171, R172 together: a RET that finds the stack a CALL left returns behind the CALL and restores the depth and every
live entry. -/
def Obligations.ReturnUndoesCall : Prop :=
  ∀ (s : State) (nnn : BitVec 12), s.sp.val < 16 → ∃ t, exec (.call nnn) s = .next t ∧
    ∀ u : State, u.sp = t.sp → u.stack = t.stack → ∃ v, exec .ret u = .next v ∧ v.pc = s.pc + 2 ∧ v.sp = s.sp ∧
      ∀ j : Fin 16, j.val < s.sp.val → v.stack[j.val] = s.stack[j.val]

/-- HALT (R179) ends the run with reason Sentinel, whatever its operand; the value 0xFFFF is the spec's decision D12
(log 10). -/
def Obligations.HaltEndsRun : Prop :=
  ∀ (s : State) (nnn : BitVec 12),
    exec (.halt nnn) s = .next { s with pc := 0xFFFF#16, run := .halted .sentinel }

/-! ## Arithmetic and logic -/

/-- R191, R193: the register loads, VF unchanged unless it is the destination. -/
def Obligations.RegisterLoads : Prop :=
  ∀ (s : State) (x y : Reg) (kk : Byte),
    (∃ t, exec (.ldVxKk x kk) s = .next t ∧ t.getV x = kk ∧ (∀ r, r ≠ x → t.getV r = s.getV r) ∧
      t = { s with V := t.V, pc := s.pc + 2 }) ∧
    (∃ t, exec (.ldVxVy x y) s = .next t ∧ t.getV x = s.getV y ∧ (∀ r, r ≠ x → t.getV r = s.getV r) ∧
      t = { s with V := t.V, pc := s.pc + 2 })

/-- R192: ADD Vx, byte wraps and writes no carry: every register but Vx keeps its value, VF too. -/
def Obligations.AddImmediateNoCarry : Prop :=
  ∀ (s : State) (x : Reg) (kk : Byte), ∃ t, exec (.addVxKk x kk) s = .next t ∧
    (t.getV x).toNat = ((s.getV x).toNat + kk.toNat) % 256 ∧ (∀ r, r ≠ x → t.getV r = s.getV r) ∧
    t = { s with V := t.V, pc := s.pc + 2 }

/-- OR, AND and XOR (R194 to R196), bit by bit; that VF stays is the spec's decision D18 (log 15). -/
def Obligations.LogicBitwise : Prop :=
  ∀ (s : State) (x y : Reg),
    (∃ t, exec (.or x y) s = .next t ∧
      (∀ b, b < 8 → (t.getV x).getLsbD b = ((s.getV x).getLsbD b || (s.getV y).getLsbD b)) ∧
      (∀ r, r ≠ x → t.getV r = s.getV r) ∧ t = { s with V := t.V, pc := s.pc + 2 }) ∧
    (∃ t, exec (.and x y) s = .next t ∧
      (∀ b, b < 8 → (t.getV x).getLsbD b = ((s.getV x).getLsbD b && (s.getV y).getLsbD b)) ∧
      (∀ r, r ≠ x → t.getV r = s.getV r) ∧ t = { s with V := t.V, pc := s.pc + 2 }) ∧
    (∃ t, exec (.xor x y) s = .next t ∧
      (∀ b, b < 8 → (t.getV x).getLsbD b = ((s.getV x).getLsbD b ^^ (s.getV y).getLsbD b)) ∧
      (∀ r, r ≠ x → t.getV r = s.getV r) ∧ t = { s with V := t.V, pc := s.pc + 2 })

/-- ADD Vx, Vy (R197): the sum modulo 256 and the carry. That VF ends as the carry when x = F is the spec's decision D17
(log 14). -/
def Obligations.AddSetsCarry : Prop :=
  ∀ (s : State) (x y : Reg), ∃ t, exec (.addVxVy x y) s = .next t ∧
    (x ≠ VF → (t.getV x).toNat = ((s.getV x).toNat + (s.getV y).toNat) % 256) ∧
    (t.getV VF).toNat = (if 256 ≤ (s.getV x).toNat + (s.getV y).toNat then 1 else 0) ∧
    (∀ r, r ≠ x → r ≠ VF → t.getV r = s.getV r) ∧ t = { s with V := t.V, pc := s.pc + 2 }

/-- SUB and SUBN (R198, R200): the difference modulo 256 and VF = 1 exactly when the minuend is strictly greater; with
x = F the flag stands (D17, log 14). -/
def Obligations.SubtractSetsGreater : Prop :=
  ∀ (s : State) (x y : Reg),
    (∃ t, exec (.sub x y) s = .next t ∧
      (x ≠ VF → ((t.getV x).toNat : Int) = ((s.getV x).toNat - (s.getV y).toNat : Int) % 256) ∧
      (t.getV VF).toNat = (if (s.getV y).toNat < (s.getV x).toNat then 1 else 0) ∧
      (∀ r, r ≠ x → r ≠ VF → t.getV r = s.getV r) ∧ t = { s with V := t.V, pc := s.pc + 2 }) ∧
    (∃ t, exec (.subn x y) s = .next t ∧
      (x ≠ VF → ((t.getV x).toNat : Int) = ((s.getV y).toNat - (s.getV x).toNat : Int) % 256) ∧
      (t.getV VF).toNat = (if (s.getV x).toNat < (s.getV y).toNat then 1 else 0) ∧
      (∀ r, r ≠ x → r ≠ VF → t.getV r = s.getV r) ∧ t = { s with V := t.V, pc := s.pc + 2 })

/-- SHR and SHL (R199, R201), bit by bit, with the bit shifted out in VF. That Vx is shifted and y ignored is the spec's
decision D19 (log 16), the flag with x = F is D17. -/
def Obligations.ShiftsByOne : Prop :=
  ∀ (s : State) (x y : Reg),
    (∃ t, exec (.shr x y) s = .next t ∧
      (x ≠ VF → ∀ b, b < 8 → (t.getV x).getLsbD b = (s.getV x).getLsbD (b + 1)) ∧
      t.getV VF = (if (s.getV x).getLsbD 0 then 0x01#8 else 0x00#8) ∧
      (∀ r, r ≠ x → r ≠ VF → t.getV r = s.getV r) ∧ t = { s with V := t.V, pc := s.pc + 2 }) ∧
    (∃ t, exec (.shl x y) s = .next t ∧
      (x ≠ VF → (t.getV x).getLsbD 0 = false ∧
        ∀ b, b < 7 → (t.getV x).getLsbD (b + 1) = (s.getV x).getLsbD b) ∧
      t.getV VF = (if (s.getV x).getLsbD 7 then 0x01#8 else 0x00#8) ∧
      (∀ r, r ≠ x → r ≠ VF → t.getV r = s.getV r) ∧ t = { s with V := t.V, pc := s.pc + 2 })

/-- RND (R202) stores the random byte of the step masked by kk, for every value of the port `rand` (D20, log 17). -/
def Obligations.RandomIsMasked : Prop :=
  ∀ (s : State) (x : Reg) (kk : Byte), ∃ t, exec (.rnd x kk) s = .next t ∧
    (∀ b, b < 8 → (t.getV x).getLsbD b = (s.rand.getLsbD b && kk.getLsbD b)) ∧
    (∀ r, r ≠ x → t.getV r = s.getV r) ∧ t = { s with V := t.V, pc := s.pc + 2 }

/-! ## Index register and memory -/

/-- R220: LD I, addr. -/
def Obligations.LoadIndex : Prop :=
  ∀ (s : State) (nnn : BitVec 12), exec (.ldI nnn) s = .next { s with I := nnn.setWidth 16, pc := s.pc + 2 }

/-- ADD I, Vx (R221). That VF stays and that a sum over 0xFFFF raises is the spec's decision D21 (log 18). -/
def Obligations.AddToIndex : Prop :=
  ∀ (s : State) (x : Reg),
    (s.I.toNat + (s.getV x).toNat ≤ 0xFFFF → ∃ t, exec (.addIVx x) s = .next t ∧
      t.I.toNat = s.I.toNat + (s.getV x).toNat ∧ t = { s with I := t.I, pc := s.pc + 2 }) ∧
    (0xFFFF < s.I.toNat + (s.getV x).toNat → exec (.addIVx x) s = .next { s with
      run := .faulted ⟨.outOfBoundsAccess, some (encode (.addIVx x)), s.pc, some .indexOverflow⟩ })

/-- LD F, Vx (R222): the whole register times 5, unmasked (D22, log 19). -/
def Obligations.GlyphAddress : Prop :=
  ∀ (s : State) (x : Reg), ∃ t, exec (.ldFVx x) s = .next t ∧ t.I.toNat = (s.getV x).toNat * 5 ∧
    t = { s with I := t.I, pc := s.pc + 2 }

/-- R223: LD B, Vx stores the three digits at I, I + 1 and I + 2, every other byte as before, and raises when I + 2 is past
the end. The premise that memory is in its canonical form is the model's invariant. -/
def Obligations.BcdStored : Prop :=
  ∀ (s : State) (x : Reg), Memory.wf s.mem →
    (effAddr s 2 < 4096 → ∃ t, exec (.ldBVx x) s = .next t ∧
      (Memory.read t.mem (effAddr s 0)).toNat = (s.getV x).toNat / 100 ∧
      (Memory.read t.mem (effAddr s 1)).toNat = (s.getV x).toNat / 10 % 10 ∧
      (Memory.read t.mem (effAddr s 2)).toNat = (s.getV x).toNat % 10 ∧
      (∀ a, a ≠ effAddr s 0 → a ≠ effAddr s 1 → a ≠ effAddr s 2 → Memory.read t.mem a = Memory.read s.mem a) ∧
      t = { s with mem := t.mem, pc := s.pc + 2 }) ∧
    (4096 ≤ effAddr s 2 → ∃ t what, exec (.ldBVx x) s = .next t ∧
      t.run = .faulted ⟨.outOfBoundsAccess, some (encode (.ldBVx x)), s.pc, what⟩ ∧ t.pc = s.pc ∧ t.I = s.I)

/-- LD [I], Vx (R224): V0 to Vx at I to I + x, every other byte as before; that I stays is D23 (log 20). -/
def Obligations.DumpStores : Prop :=
  ∀ (s : State) (x : Reg), Memory.wf s.mem → effAddr s x.val < 4096 → ∃ t, exec (.ldMemVx x) s = .next t ∧
    (∀ k : Reg, k ≤ x → Memory.read t.mem (effAddr s k.val) = s.getV k) ∧
    (∀ a, (∀ k : Reg, k ≤ x → a ≠ effAddr s k.val) → Memory.read t.mem a = Memory.read s.mem a) ∧
    t = { s with mem := t.mem, pc := s.pc + 2 }

/-- LD Vx, [I] (R225): V0 to Vx from I to I + x, every other register as before; that I stays is D23 (log 20). -/
def Obligations.LoadFills : Prop :=
  ∀ (s : State) (x : Reg), effAddr s x.val < 4096 → ∃ t, exec (.ldVxMem x) s = .next t ∧
    (∀ k : Reg, k ≤ x → t.getV k = Memory.read s.mem (effAddr s k.val)) ∧
    (∀ r, x < r → t.getV r = s.getV r) ∧ t = { s with V := t.V, pc := s.pc + 2 }

/-- The round trip of R225 and 95_test_vectors.md L1-5: a load of V0 to Vx from the memory and the index a dump of V0 to Vx
left restores them. -/
def Obligations.DumpLoadRoundTrip : Prop :=
  ∀ (s : State) (x : Reg), Memory.wf s.mem → effAddr s x.val < 4096 → ∃ t, exec (.ldMemVx x) s = .next t ∧
    ∀ u : State, u.mem = t.mem → u.I = t.I → ∃ v, exec (.ldVxMem x) u = .next v ∧
      ∀ k : Reg, k ≤ x → v.getV k = s.getV k

/-- R302, R304: an access at I past the end of memory. The run is Faulted, pc stays, and only what the instruction would
have written is open: the bytes stored to inside memory, the registers loaded, the sprite's box, VF and present_count
(D11, log 9). The address in the record is the model's (log 28). That DRW reads the rows clipped below the screen too is D25
(log 22). -/
def Obligations.IndexedAccessFaults : Prop :=
  (∀ (s : State) (x : Reg), 4096 ≤ effAddr s 2 → ∃ t, exec (.ldBVx x) s = .next t ∧
    t.run = .faulted ⟨.outOfBoundsAccess, some (encode (.ldBVx x)), s.pc, some (.memoryWrite (max (effAddr s 0) 4096))⟩ ∧
    (∀ a, a < effAddr s 0 ∨ effAddr s 2 < a ∨ 4096 ≤ a → Memory.read t.mem a = Memory.read s.mem a) ∧
    t = { s with mem := t.mem, run := t.run }) ∧
  (∀ (s : State) (x : Reg), 4096 ≤ effAddr s x.val → ∃ t, exec (.ldMemVx x) s = .next t ∧
    t.run = .faulted ⟨.outOfBoundsAccess, some (encode (.ldMemVx x)), s.pc, some (.memoryWrite (max (effAddr s 0) 4096))⟩ ∧
    (∀ a, a < effAddr s 0 ∨ effAddr s x.val < a ∨ 4096 ≤ a → Memory.read t.mem a = Memory.read s.mem a) ∧
    t = { s with mem := t.mem, run := t.run }) ∧
  (∀ (s : State) (x : Reg), 4096 ≤ effAddr s x.val → ∃ t, exec (.ldVxMem x) s = .next t ∧
    t.run = .faulted ⟨.outOfBoundsAccess, some (encode (.ldVxMem x)), s.pc, some (.memoryRead (max (effAddr s 0) 4096))⟩ ∧
    (∀ r, x < r → t.getV r = s.getV r) ∧ t = { s with V := t.V, run := t.run }) ∧
  (∀ (s : State) (x y : Reg) (n : Fin 16), 1 ≤ n.val → 4096 ≤ effAddr s (n.val - 1) → ∃ t, exec (.drw x y n) s = .next t ∧
    t.run = .faulted ⟨.outOfBoundsAccess, some (encode (.drw x y n)), s.pc, some (.memoryRead (max (effAddr s 0) 4096))⟩ ∧
    (∀ r, r ≠ VF → t.getV r = s.getV r) ∧
    (∀ px py, inSpriteBox ((s.getV x).toNat % 64) ((s.getV y).toNat % 32) n.val px.val py.val = false →
      t.fb.pixel px py = s.fb.pixel px py) ∧
    t = { s with V := t.V, fb := t.fb, presentCount := t.presentCount, run := t.run })

/-! ## Framebuffer -/

/-- xor_write (R242, L1-4): the toggle with its collision, no other pixel; three writes of one off pixel report false, true,
false. The result without `on` is the spec's decision D26 (log 23). -/
def Obligations.XorWriteToggles : Prop :=
  ∀ (fb : Framebuffer) (x : Fin 64) (y : Fin 32),
    (fb.xorWrite x y true).2 = fb.pixel x y ∧
    (fb.xorWrite x y true).1.pixel x y = !fb.pixel x y ∧
    (∀ x' y', (x', y') ≠ (x, y) → (fb.xorWrite x y true).1.pixel x' y' = fb.pixel x' y') ∧
    fb.xorWrite x y false = (fb, false) ∧
    (fb.pixel x y = false →
      (fb.xorWrite x y true).2 = false ∧
      ((fb.xorWrite x y true).1.xorWrite x y true).2 = true ∧
      (((fb.xorWrite x y true).1.xorWrite x y true).1.xorWrite x y true).2 = false)

/-- DRW (R246 to R248) against its closed form: every pixel of the whole screen is its old value XOR the sprite's bit there,
clipped at the edges; VF says whether a set pixel was turned off; present once. Rests on D25 (bit order, n = 0, rows read;
log 22). -/
def Obligations.DrawXorsSprite : Prop :=
  ∀ (s : State) (x y : Reg) (n : Fin 16), (n.val = 0 ∨ effAddr s (n.val - 1) < 4096) →
    let x0 := (s.getV x).toNat % 64
    let y0 := (s.getV y).toNat % 32
    ∃ t, exec (.drw x y n) s = .next t ∧
      (∀ px py, t.fb.pixel px py = (s.fb.pixel px py ^^ spriteBit s x0 y0 n.val px py)) ∧
      (spriteCollides s x0 y0 n.val → t.getV VF = 0x01#8) ∧
      (¬ spriteCollides s x0 y0 n.val → t.getV VF = 0x00#8) ∧
      (∀ r, r ≠ VF → t.getV r = s.getV r) ∧
      t = { s with fb := t.fb, V := t.V, presentCount := s.presentCount + 1, pc := s.pc + 2 }

/-- R246: the same sprite drawn twice at the same place gives back the screen, and the second draw collides exactly when some
set bit of the sprite fell on a pixel that was off at first (on a clear screen: when the sprite has a set bit there). That
n = 0 draws nothing and leaves VF = 0 is the spec's decision D25 and the bit order in `spriteBit` is K6 (log 22). With x or
y = F the first draw moves the second one's origin, so these forms have no such law; `DrawXorsSprite` covers each of their
draws. -/
def Obligations.DrawTwiceErases : Prop :=
  ∀ (s : State) (x y : Reg) (n : Fin 16), (n.val = 0 ∨ effAddr s (n.val - 1) < 4096) → x ≠ VF → y ≠ VF →
    ∃ t u, exec (.drw x y n) s = .next t ∧ exec (.drw x y n) t = .next u ∧ u.fb = s.fb ∧
      (u.getV VF = 0x01#8 ↔ ∃ px py, spriteBit s ((s.getV x).toNat % 64) ((s.getV y).toNat % 32) n.val px py = true ∧
        s.fb.pixel px py = false)

/-- CLS (R245, R241): every pixel off, nothing else; that it does not present is the spec's decision D24 (log 21). -/
def Obligations.ClearScreen : Prop :=
  ∀ s : State, ∃ t, exec .cls s = .next t ∧ (∀ px py, t.fb.pixel px py = false) ∧
    t = { s with fb := t.fb, pc := s.pc + 2 }

/-! ## Timers -/

/-- tick (R260, R263): one less and a new reference when nonzero and due, else nothing. The exact comparison is D27
(log 24). -/
def Obligations.TickDecrementsOnce : Prop :=
  ∀ (t : Timer) (now : Time),
    (t.value ≠ 0 → 1 ≤ (now - t.ref) * 60 → (t.tick now).value.toNat + 1 = t.value.toNat ∧ (t.tick now).ref = now) ∧
    (t.value = 0 → t.tick now = t) ∧ ((now - t.ref) * 60 < 1 → t.tick now = t)

/-- LD DT, Vx and LD ST, Vx (R265, R266, R261) set the value and the reference, and `sound_on` follows ST (R43); LD Vx, DT
(R264) reads the value, every register but Vx as before. -/
def Obligations.TimerTransfers : Prop :=
  ∀ (s : State) (x : Reg),
    exec (.ldDtVx x) s = .next { s with DT := ⟨s.getV x, s.now⟩, pc := s.pc + 2 } ∧
    (∃ t, exec (.ldStVx x) s = .next t ∧ t = { s with ST := ⟨s.getV x, s.now⟩, pc := s.pc + 2 } ∧
      (t.soundOn = true ↔ s.getV x ≠ 0)) ∧
    (∃ t, exec (.ldVxDt x) s = .next t ∧ t.getV x = s.DT.value ∧ (∀ r, r ≠ x → t.getV r = s.getV r) ∧
      t = { s with V := t.V, pc := s.pc + 2 })

/-- R264: the value LD Vx, DT reads in a step is the one after that step's tick. -/
def Obligations.DelayReadFollowsTick : Prop :=
  ∀ (s : State) (x : Reg), s.run = .running → s.hostActs.quitReq = false → s.pc.toNat + 1 < 4096 →
    decodeWord (wordOfBytes (Memory.read s.mem s.pc.toNat) (Memory.read s.mem (s.pc.toNat + 1))) = .ok (.ldVxDt x) →
    ∃ t, step s = .next t ∧ t.getV x = (s.DT.tick s.hostActs.now).value ∧ (∀ r, r ≠ x → t.getV r = s.getV r) ∧
      t = { s.hostActs.tickTimers with V := t.V, pc := s.pc + 2 }

/-- R263, R65, R42: over any step time does not go back, and each timer keeps its value, loses exactly one after 1/60 s, or
is set by its own instruction. The exact comparison with 1/60 s is the spec's decision D27 (log 24). -/
def Obligations.TimersMoveByOne : Prop :=
  ∀ s t : State, step s = .next t → s.now ≤ t.now ∧
    (t.DT = s.DT ∨ (t.DT.value.toNat + 1 = s.DT.value.toNat ∧ 1 ≤ (t.now - s.DT.ref) * 60 ∧ t.DT.ref = t.now) ∨
      ∃ w x, s.fetch = some w ∧ decodeWord w = .ok (.ldDtVx x) ∧ t.DT = ⟨s.getV x, t.now⟩) ∧
    (t.ST = s.ST ∨ (t.ST.value.toNat + 1 = s.ST.value.toNat ∧ 1 ≤ (t.now - s.ST.ref) * 60 ∧ t.ST.ref = t.now) ∨
      ∃ w x, s.fetch = some w ∧ decodeWord w = .ok (.ldStVx x) ∧ t.ST = ⟨s.getV x, t.now⟩)

/-! ## Keys -/

/-- SKP (R283): a match skips and empties the latch, which is the spec's decision D31 (log 27); no match does neither. -/
def Obligations.SkipOnKey : Prop :=
  ∀ (s : State) (x : Reg),
    (keyIs s x → exec (.skp x) s = .next { s with latch := [], pc := s.pc + 4 }) ∧
    (¬ keyIs s x → exec (.skp x) s = .next { s with pc := s.pc + 2 })

/-- R284: SKNP skips when no key matches and empties the latch when one does. -/
def Obligations.SkipOnNoKey : Prop :=
  ∀ (s : State) (x : Reg),
    (keyIs s x → exec (.sknp x) s = .next { s with latch := [], pc := s.pc + 2 }) ∧
    (¬ keyIs s x → exec (.sknp x) s = .next { s with pc := s.pc + 4 })

/-- LD Vx, K (R285) waits at its own pc while the latch is empty, else takes the last key and empties the latch (D32,
log 27). -/
def Obligations.KeyWait : Prop :=
  ∀ (s : State) (x : Reg),
    (s.latch = [] → exec (.ldVxK x) s = .next s) ∧
    (∀ k : KeyCode, s.latch.getLast? = some k → ∃ t, exec (.ldVxK x) s = .next t ∧ (t.getV x).toNat = k.val ∧
      (∀ r, r ≠ x → t.getV r = s.getV r) ∧ t = { s with V := t.V, latch := [], pc := s.pc + 2 })

/-! ## The step -/

/-- When the bytes at pc decode to an instruction (R153, R155), a running step that no quit stops is the host's acts, the
tick, and then that instruction (R150). -/
def Obligations.StepRunsDecoded : Prop :=
  ∀ (s : State) (i : Instr), s.run = .running → s.hostActs.quitReq = false → s.pc.toNat + 1 < 4096 →
    decodeWord (wordOfBytes (Memory.read s.mem s.pc.toNat) (Memory.read s.mem (s.pc.toNat + 1))) = .ok i →
    step s = exec i s.hostActs.tickTimers

/-- The model's `withFetchWord` (log 33): the very next step runs exactly the instruction placed, from any state with a
canonical memory. -/
def Obligations.PlacedWordRunsNext : Prop :=
  ∀ (s : State) (i : Instr), Memory.wf s.mem → i.wf = true →
    step (s.withFetchWord 16 (encode i).toNat) = exec i (s.withFetchWord 16 (encode i).toNat).hostActs.tickTimers

/-- R151: in an ended run no number of steps changes any state; so a run that has ended well is safe for good (R307). -/
def Obligations.EndedRunIsFinal : Prop :=
  ∀ s : State, s.ended →
    (∀ k, Sys2Proof.core.run k s = .next s) ∧ (s.endedWell ∨ s.endedBadly) ∧ (s.endedWell → s.safe)

/-- The boundary halts of R152, quit first (the spec's decisions D13 and D33, log 11): no tick, no fetch, pc kept; only the
host's own acts since the last step show. -/
def Obligations.BoundaryHalts : Prop :=
  ∀ s : State, s.run = .running →
    (s.hostActs.quitReq = true → step s = .next { s.hostActs with run := .halted .quit }) ∧
    (s.hostActs.quitReq = false → 4096 ≤ s.pc.toNat → step s = .next { s.hostActs with run := .halted .pcOutOfRange })

/-- R63, R65, R66: what the host can do between two steps. The entry list is the model's form of it (log 25). -/
def Obligations.HostOnlyAppends : Prop :=
  ∀ s : State,
    let u := s.hostActs
    u = { s with latch := u.latch, quitReq := u.quitReq, now := u.now, rand := u.rand, host := u.host, draws := u.draws } ∧
    s.latch <+: u.latch ∧ (s.quitReq = true → u.quitReq = true) ∧ s.now ≤ u.now ∧
    (s.host = [] → u.latch = s.latch ∧ u.quitReq = s.quitReq) ∧
    (∀ h rest, s.host = h :: rest → u.latch = s.latch ++ h.keys ∧ u.quitReq = (s.quitReq || h.quit) ∧ u.rand = h.rand ∧
      (s.now ≤ h.now → u.now = h.now) ∧ u.host = rest)

/-- R153: the fetch at 0xFFF fails after the tick; that its record holds no word is the spec's decision D34 (log 28). -/
def Obligations.FetchPastEndFaults : Prop :=
  ∀ s : State, s.run = .running → s.hostActs.quitReq = false → s.pc = 0x0FFF#16 →
    step s = .next { s.hostActs.tickTimers with
      run := .faulted ⟨.outOfBoundsAccess, none, s.pc, some .instructionFetch⟩ }

/-- R155: an invalid word raises InvalidOpcode with the word and its pc; the timers have ticked and nothing else changed. -/
def Obligations.InvalidWordFaults : Prop :=
  ∀ (s : State) (w : Word) (e : DecodeError), s.run = .running → s.hostActs.quitReq = false → s.pc.toNat + 1 < 4096 →
    w = wordOfBytes (Memory.read s.mem s.pc.toNat) (Memory.read s.mem (s.pc.toNat + 1)) → decodeWord w = .error e →
    ∃ what, step s = .next { s.hostActs.tickTimers with run := .faulted ⟨.invalidOpcode, some w, s.pc, what⟩ }

/-- R301, R302 for a whole step: OutOfBoundsAccess is raised in the cases of R302's table and in no others, and
InvalidOpcode exactly by decode. The row of ADD I is the spec's decision D21 (log 18), the row of RET D15 (log 13), and that
DRW reads, and raises on, the rows clipped below the screen is D25 (log 22). -/
def Obligations.FaultsExactly : Prop :=
  ∀ s t : State, s.run = .running → s.hostActs.quitReq = false → s.pc.toNat < 4096 → step s = .next t →
    ((∃ r, t.run = .faulted r ∧ r.kind = .outOfBoundsAccess ∧ r.pc = s.pc) ↔
      s.pc = 0x0FFF#16 ∨ ∃ w i, s.fetch = some w ∧ decodeWord w = .ok i ∧ outOfBoundsRow i s = true) ∧
    ((∃ r, t.run = .faulted r ∧ r.kind = .invalidOpcode ∧ r.pc = s.pc) ↔
      ∃ w e, s.fetch = some w ∧ decodeWord w = .error e)

/-- R61, R119: the step and every instruction are total: they always answer a next state, errors being states (R303). -/
def Obligations.StepAlwaysAnswers : Prop :=
  (∀ s : State, ∃ t, step s = .next t) ∧ ∀ (i : Instr) (s : State), ∃ t, exec i s = .next t

/-! ## Whole-machine rules -/

/-- R37, R39, R40, R80, R303, R306: every step keeps the invariant. Its bound 0x10FE rests on the spec's decision D14 (log
12), the pc after HALT on D12 (log 10), the other halts on D13 and D33 (log 11), the record's missing word on D34 (log 28). -/
def Obligations.StepKeepsInvariant : Prop := ∀ s t : State, s.Inv → step s = .next t → t.Inv

/-- The invariant holds at reset. -/
def Obligations.ResetHasInvariant : Prop := State.reset.Inv

/-- R35, R41, R43, R44, R45, R86, R62: each part of the state is written by the instructions that name it and by no other;
the run ends only by HALT or by the instruction's own fatal error. Decisions of the spec it rests on: the dump and the load
keep I (D23, log 20), RET keeps the array (D16, log 13), CLS does not present (D24, log 21), the latch is only ever emptied
whole (D31, D32, log 27), and the fatal errors of RET, ADD I and a clipped DRW (D15, D21, D25, logs 13, 18, 22). -/
def Obligations.OnlyNamedWriters : Prop :=
  ∀ (i : Instr) (s t : State), exec i s = .next t →
    (t.mem ≠ s.mem → ∃ x, i = .ldBVx x ∨ i = .ldMemVx x) ∧
    (t.I ≠ s.I → (∃ nnn, i = .ldI nnn) ∨ ∃ x, i = .addIVx x ∨ i = .ldFVx x) ∧
    (t.sp ≠ s.sp → i = .ret ∨ ∃ nnn, i = .call nnn) ∧
    (t.stack ≠ s.stack → ∃ nnn, i = .call nnn) ∧
    (t.DT ≠ s.DT → ∃ x, i = .ldDtVx x) ∧
    (t.ST ≠ s.ST → ∃ x, i = .ldStVx x) ∧
    (t.fb ≠ s.fb → i = .cls ∨ ∃ x y n, i = .drw x y n) ∧
    (t.presentCount ≠ s.presentCount → ∃ x y n, i = .drw x y n) ∧
    (t.latch ≠ s.latch → t.latch = [] ∧ ∃ x, i = .skp x ∨ i = .sknp x ∨ i = .ldVxK x) ∧
    (t.run ≠ s.run → (∃ nnn, i = .halt nnn) ∨ outOfBoundsRow i s = true) ∧
    (t.quitReq = s.quitReq ∧ t.now = s.now ∧ t.rand = s.rand ∧ t.host = s.host ∧ t.draws = s.draws)

/-- R32, R33: an instruction writes only the registers of its row of R33; the six flag writers leave 0 or 1 in VF unless
they raise. That OR, AND, XOR and ADD I leave VF is the spec's decisions D18 and D21 (logs 15, 18), and that VF ends as the
flag when x = F is D17 (log 14). -/
def Obligations.OnlyNamedRegistersWritten : Prop :=
  ∀ (i : Instr) (s t : State), exec i s = .next t →
    (∀ r, writesReg i r = false → t.getV r = s.getV r) ∧
    (writesFlag i = true → outOfBoundsRow i s = false → t.getV VF = 0x00#8 ∨ t.getV VF = 0x01#8)

/-- R33: an instruction depends only on the registers of its row of R33: with those equal, everything it does is equal, and
any register that differs afterwards was left alone. That SHR and SHL do not read Vy is the spec's decision D19 (log 16). For
an instruction that raises, that the two runs leave equal memory, registers and pixels is the model's choice and not the
spec's: it rests on their free values being equal (logs 9, 34, unsafe), which R304 leaves unspecified. -/
def Obligations.OnlyNamedRegistersRead : Prop :=
  ∀ (i : Instr) (s : State) (V' : Vector Byte 16), (∀ r : Reg, readsReg i r = true → V'[r.val] = s.getV r) →
    ∃ t t', exec i s = .next t ∧ exec i { s with V := V' } = .next t' ∧ t' = { t with V := t'.V } ∧
      ∀ r : Reg, t'.getV r = t.getV r ∨ (t.getV r = s.getV r ∧ t'.getV r = V'[r.val])

/-- R45, R50: no instruction reads the latch beyond its last key, the quit request, the present count, the host's coming
acts or a timer's reference. That the last keys are equal afterwards rests on the whole latch being emptied, the spec's
decisions D31 and D32 (log 27). For an instruction that raises, that the two runs leave equal memory, registers and pixels is
the model's choice and not the spec's: it rests on their free values being equal (logs 9, 34, unsafe), which R304 leaves
unspecified. -/
def Obligations.HiddenStateNotRead : Prop :=
  ∀ (i : Instr) (s : State) (l : List KeyCode) (q : Bool) (n : Nat) (h : List HostInput) (a b : Time),
    l.getLast? = s.latch.getLast? →
    ∃ t t', exec i s = .next t ∧
      exec i { s with
        latch := l, quitReq := q, presentCount := n, host := h, DT := ⟨s.DT.value, a⟩, ST := ⟨s.ST.value, b⟩ } = .next t' ∧
      t' = { t with
        latch := t'.latch, quitReq := q, presentCount := t'.presentCount, host := h, DT := t'.DT, ST := t'.ST } ∧
      t'.latch.getLast? = t.latch.getLast? ∧ t'.DT.value = t.DT.value ∧ t'.ST.value = t.ST.value

/-- R160: the program counters an instruction may leave; an instruction that raises leaves its own (R303). The outcome of
JP V0 is the unmasked sum, the spec's decision D14 (log 12), and that of HALT is 0xFFFF, its decision D12 (log 10). Which
instructions raise rests on D15, D21 and D25 (logs 13, 18, 22). -/
def Obligations.PcOutcomes : Prop :=
  ∀ (i : Instr) (s t : State), exec i s = .next t →
    (outOfBoundsRow i s = false → t.pc ∈ pcOutcomes i s) ∧ (outOfBoundsRow i s = true → t.pc = s.pc)

/-! ## Reset and memory -/

/-- R51: the state after reset. pc is the source's; the other values are the spec's decisions D2, D3, D4, D28 and D37
(logs 1, 2, 3, 24, 30). -/
def Obligations.ResetState : Prop :=
  State.reset.pc = 0x0200#16 ∧ (∀ r, State.reset.getV r = 0x00#8) ∧ State.reset.I = 0x0000#16 ∧ State.reset.sp.val = 0 ∧
  (∀ j : Fin 16, State.reset.stack[j.val] = 0x0000#16) ∧ State.reset.DT = ⟨0x00#8, 0⟩ ∧ State.reset.ST = ⟨0x00#8, 0⟩ ∧
  (∀ px py, State.reset.fb.pixel px py = false) ∧ State.reset.latch = [] ∧ State.reset.quitReq = false ∧
  State.reset.run = .running ∧ State.reset.presentCount = 0 ∧
  (List.range 5).map (Memory.read State.reset.mem) = [0xF0#8, 0x90#8, 0x90#8, 0x90#8, 0xF0#8] ∧
  ∀ a, 0x050 ≤ a → Memory.read State.reset.mem a = 0x00#8

/-- R68, R332: booting copies the image to 0x200 and up and leaves the rest of the reset state; a longer image is refused,
which is the spec's decision D7 (log 6). -/
def Obligations.BootLoadsImage : Prop :=
  ∀ image : List Byte,
    (image.length ≤ 3584 → ∃ s, boot image = .next s ∧
      (∀ (k : Nat) (h : k < image.length), Memory.read s.mem (0x200 + k) = image[k]) ∧
      (∀ a, a < 0x200 ∨ 0x200 + image.length ≤ a → Memory.read s.mem a = Memory.read State.reset.mem a) ∧
      s = { State.reset with mem := s.mem } ∧ s.Inv) ∧
    (3584 < image.length → boot image = .refused (.imageTooLong image.length))

/-- R83, R84, R91: a byte is read or written exactly at the addresses below 4096; a read gives the latest write, and a write
reaches no other address. -/
def Obligations.MemoryReadsLatestWrite : Prop :=
  ∀ (m : Memory) (a : Nat) (v : Byte), Memory.wf m →
    (4096 ≤ a → Memory.load m a = none ∧ Memory.store m a v = none) ∧
    (a < 4096 → ∃ m', Memory.store m a v = some m' ∧ Memory.wf m' ∧ Memory.load m' a = some v ∧
      ∀ b, b ≠ a → Memory.load m' b = Memory.load m b)

/-- The model's representation of R80's byte array (log 31): canonical memories with the same bytes are the same data. -/
def Obligations.MemoryIsItsBytes : Prop :=
  ∀ m m' : Memory, Memory.wf m → Memory.wf m' → (∀ a, Memory.read m a = Memory.read m' a) → m = m'
end

