-- ==== Sys2Proof/Laws/Decode.lean ====
section
/-! SUPPORT. Fields of assembled words, and words of fields: the arithmetic behind the round trip of decode and encode. -/
namespace Sys2Proof

theorem encodeNnn_toNat {op : Nat} (h : op < 16) (nnn : BitVec 12) :
    (encodeNnn op nnn).toNat = op * 0x1000 + nnn.toNat := by
  have := nnn.isLt
  simp only [encodeNnn, BitVec.toNat_ofNat]
  omega

theorem encodeXkk_toNat {op : Nat} (h : op < 16) (x : Reg) (kk : Byte) :
    (encodeXkk op x kk).toNat = op * 0x1000 + x.val * 0x100 + kk.toNat := by
  have := x.isLt
  have := kk.isLt
  simp only [encodeXkk, BitVec.toNat_ofNat]
  omega

theorem encodeXyn_toNat {op n : Nat} (h : op < 16) (hn : n < 16) (x y : Reg) :
    (encodeXyn op x y n).toNat = op * 0x1000 + x.val * 0x100 + y.val * 0x10 + n := by
  have := x.isLt
  have := y.isLt
  simp only [encodeXyn, BitVec.toNat_ofNat]
  omega

theorem opField_encodeNnn {op : Nat} (h : op < 16) (nnn : BitVec 12) : opField (encodeNnn op nnn) = op := by
  have := nnn.isLt
  rw [opField, encodeNnn_toNat h]
  omega

theorem nnnField_encodeNnn {op : Nat} (h : op < 16) (nnn : BitVec 12) : nnnField (encodeNnn op nnn) = nnn := by
  have := nnn.isLt
  apply BitVec.eq_of_toNat_eq
  rw [nnnField, encodeNnn_toNat h, BitVec.toNat_ofNat]
  omega

theorem opField_encodeXkk {op : Nat} (h : op < 16) (x : Reg) (kk : Byte) : opField (encodeXkk op x kk) = op := by
  have := x.isLt
  have := kk.isLt
  rw [opField, encodeXkk_toNat h]
  omega

theorem xField_encodeXkk {op : Nat} (h : op < 16) (x : Reg) (kk : Byte) : xField (encodeXkk op x kk) = x := by
  have := x.isLt
  have := kk.isLt
  apply Fin.ext
  simp only [xField, encodeXkk_toNat h]
  omega

theorem kkField_encodeXkk {op : Nat} (h : op < 16) (x : Reg) (kk : Byte) : kkField (encodeXkk op x kk) = kk := by
  have := kk.isLt
  apply BitVec.eq_of_toNat_eq
  rw [kkField, encodeXkk_toNat h, BitVec.toNat_ofNat]
  omega

theorem opField_encodeXyn {op n : Nat} (h : op < 16) (hn : n < 16) (x y : Reg) : opField (encodeXyn op x y n) = op := by
  have := x.isLt
  have := y.isLt
  rw [opField, encodeXyn_toNat h hn]
  omega

theorem xField_encodeXyn {op n : Nat} (h : op < 16) (hn : n < 16) (x y : Reg) : xField (encodeXyn op x y n) = x := by
  have := x.isLt
  have := y.isLt
  apply Fin.ext
  simp only [xField, encodeXyn_toNat h hn]
  omega

theorem yField_encodeXyn {op n : Nat} (h : op < 16) (hn : n < 16) (x y : Reg) : yField (encodeXyn op x y n) = y := by
  have := x.isLt
  have := y.isLt
  apply Fin.ext
  simp only [yField, encodeXyn_toNat h hn]
  omega

theorem nField_encodeXyn {op n : Nat} (h : op < 16) (hn : n < 16) (x y : Reg) : (nField (encodeXyn op x y n)).val = n := by
  have := x.isLt
  have := y.isLt
  simp only [nField, encodeXyn_toNat h hn]
  omega

/-- A word is its `op` and `nnn` assembled. -/
theorem encodeNnn_fields (w : Word) : encodeNnn (opField w) (nnnField w) = w := by
  have := w.isLt
  apply BitVec.eq_of_toNat_eq
  simp only [encodeNnn, opField, nnnField, BitVec.toNat_ofNat]
  omega

/-- A word is its `op`, `x` and `kk` assembled. -/
theorem encodeXkk_fields (w : Word) : encodeXkk (opField w) (xField w) (kkField w) = w := by
  have := w.isLt
  apply BitVec.eq_of_toNat_eq
  simp only [encodeXkk, opField, xField, kkField, BitVec.toNat_ofNat]
  omega

/-- A word is its `op`, `x`, `y` and `n` assembled. -/
theorem encodeXyn_fields (w : Word) : encodeXyn (opField w) (xField w) (yField w) (nField w).val = w := by
  have := w.isLt
  apply BitVec.eq_of_toNat_eq
  simp only [encodeXyn, opField, xField, yField, nField, BitVec.toNat_ofNat]
  omega

/-- A word's two bytes put together give it back (R87). -/
theorem wordOfBytes_hi_lo (w : Word) : wordOfBytes (hiByte w) (loByte w) = w := by
  have := w.isLt
  apply BitVec.eq_of_toNat_eq
  simp only [wordOfBytes, hiByte, loByte, BitVec.toNat_append, BitVec.toNat_ofNat]
  rw [← Nat.shiftLeft_add_eq_or_of_lt (by omega), Nat.shiftLeft_eq]
  omega

end Sys2Proof
end

