-- ==== Sys2Proof/Laws/State.lean ====
section
/-! SUPPORT. One lemma per field per update of State, each true by rfl; what the update does to the field it changes stands
first. -/
namespace Sys2Proof.Machine

variable (s : State)

@[simp] theorem State.setV_V (r : Reg) (v : Byte) : (s.setV r v).V = s.V.set r.val v := rfl
@[simp] theorem State.setV_mem (r : Reg) (v : Byte) : (s.setV r v).mem = s.mem := rfl
@[simp] theorem State.setV_I (r : Reg) (v : Byte) : (s.setV r v).I = s.I := rfl
@[simp] theorem State.setV_pc (r : Reg) (v : Byte) : (s.setV r v).pc = s.pc := rfl
@[simp] theorem State.setV_sp (r : Reg) (v : Byte) : (s.setV r v).sp = s.sp := rfl
@[simp] theorem State.setV_stack (r : Reg) (v : Byte) : (s.setV r v).stack = s.stack := rfl
@[simp] theorem State.setV_DT (r : Reg) (v : Byte) : (s.setV r v).DT = s.DT := rfl
@[simp] theorem State.setV_ST (r : Reg) (v : Byte) : (s.setV r v).ST = s.ST := rfl
@[simp] theorem State.setV_fb (r : Reg) (v : Byte) : (s.setV r v).fb = s.fb := rfl
@[simp] theorem State.setV_latch (r : Reg) (v : Byte) : (s.setV r v).latch = s.latch := rfl
@[simp] theorem State.setV_quitReq (r : Reg) (v : Byte) : (s.setV r v).quitReq = s.quitReq := rfl
@[simp] theorem State.setV_run (r : Reg) (v : Byte) : (s.setV r v).run = s.run := rfl
@[simp] theorem State.setV_presentCount (r : Reg) (v : Byte) : (s.setV r v).presentCount = s.presentCount := rfl
@[simp] theorem State.setV_now (r : Reg) (v : Byte) : (s.setV r v).now = s.now := rfl
@[simp] theorem State.setV_rand (r : Reg) (v : Byte) : (s.setV r v).rand = s.rand := rfl
@[simp] theorem State.setV_host (r : Reg) (v : Byte) : (s.setV r v).host = s.host := rfl
@[simp] theorem State.setV_draws (r : Reg) (v : Byte) : (s.setV r v).draws = s.draws := rfl

@[simp] theorem State.setResultFlag_mem (x : Reg) (v f : Byte) : (s.setResultFlag x v f).mem = s.mem := rfl
@[simp] theorem State.setResultFlag_I (x : Reg) (v f : Byte) : (s.setResultFlag x v f).I = s.I := rfl
@[simp] theorem State.setResultFlag_pc (x : Reg) (v f : Byte) : (s.setResultFlag x v f).pc = s.pc := rfl
@[simp] theorem State.setResultFlag_sp (x : Reg) (v f : Byte) : (s.setResultFlag x v f).sp = s.sp := rfl
@[simp] theorem State.setResultFlag_stack (x : Reg) (v f : Byte) : (s.setResultFlag x v f).stack = s.stack := rfl
@[simp] theorem State.setResultFlag_DT (x : Reg) (v f : Byte) : (s.setResultFlag x v f).DT = s.DT := rfl
@[simp] theorem State.setResultFlag_ST (x : Reg) (v f : Byte) : (s.setResultFlag x v f).ST = s.ST := rfl
@[simp] theorem State.setResultFlag_fb (x : Reg) (v f : Byte) : (s.setResultFlag x v f).fb = s.fb := rfl
@[simp] theorem State.setResultFlag_latch (x : Reg) (v f : Byte) : (s.setResultFlag x v f).latch = s.latch := rfl
@[simp] theorem State.setResultFlag_quitReq (x : Reg) (v f : Byte) : (s.setResultFlag x v f).quitReq = s.quitReq := rfl
@[simp] theorem State.setResultFlag_run (x : Reg) (v f : Byte) : (s.setResultFlag x v f).run = s.run := rfl
@[simp] theorem State.setResultFlag_presentCount (x : Reg) (v f : Byte) : (s.setResultFlag x v f).presentCount = s.presentCount := rfl
@[simp] theorem State.setResultFlag_now (x : Reg) (v f : Byte) : (s.setResultFlag x v f).now = s.now := rfl
@[simp] theorem State.setResultFlag_rand (x : Reg) (v f : Byte) : (s.setResultFlag x v f).rand = s.rand := rfl
@[simp] theorem State.setResultFlag_host (x : Reg) (v f : Byte) : (s.setResultFlag x v f).host = s.host := rfl
@[simp] theorem State.setResultFlag_draws (x : Reg) (v f : Byte) : (s.setResultFlag x v f).draws = s.draws := rfl

@[simp] theorem State.jump_pc (p : Word) : (s.jump p).pc = p := rfl
@[simp] theorem State.jump_mem (p : Word) : (s.jump p).mem = s.mem := rfl
@[simp] theorem State.jump_V (p : Word) : (s.jump p).V = s.V := rfl
@[simp] theorem State.jump_I (p : Word) : (s.jump p).I = s.I := rfl
@[simp] theorem State.jump_sp (p : Word) : (s.jump p).sp = s.sp := rfl
@[simp] theorem State.jump_stack (p : Word) : (s.jump p).stack = s.stack := rfl
@[simp] theorem State.jump_DT (p : Word) : (s.jump p).DT = s.DT := rfl
@[simp] theorem State.jump_ST (p : Word) : (s.jump p).ST = s.ST := rfl
@[simp] theorem State.jump_fb (p : Word) : (s.jump p).fb = s.fb := rfl
@[simp] theorem State.jump_latch (p : Word) : (s.jump p).latch = s.latch := rfl
@[simp] theorem State.jump_quitReq (p : Word) : (s.jump p).quitReq = s.quitReq := rfl
@[simp] theorem State.jump_run (p : Word) : (s.jump p).run = s.run := rfl
@[simp] theorem State.jump_presentCount (p : Word) : (s.jump p).presentCount = s.presentCount := rfl
@[simp] theorem State.jump_now (p : Word) : (s.jump p).now = s.now := rfl
@[simp] theorem State.jump_rand (p : Word) : (s.jump p).rand = s.rand := rfl
@[simp] theorem State.jump_host (p : Word) : (s.jump p).host = s.host := rfl
@[simp] theorem State.jump_draws (p : Word) : (s.jump p).draws = s.draws := rfl
@[simp] theorem State.jump_getV (p : Word) (q : Reg) : (s.jump p).getV q = s.getV q := rfl

@[simp] theorem State.advance_pc : (s.advance).pc = s.pc + 2 := rfl
@[simp] theorem State.advance_mem : (s.advance).mem = s.mem := rfl
@[simp] theorem State.advance_V : (s.advance).V = s.V := rfl
@[simp] theorem State.advance_I : (s.advance).I = s.I := rfl
@[simp] theorem State.advance_sp : (s.advance).sp = s.sp := rfl
@[simp] theorem State.advance_stack : (s.advance).stack = s.stack := rfl
@[simp] theorem State.advance_DT : (s.advance).DT = s.DT := rfl
@[simp] theorem State.advance_ST : (s.advance).ST = s.ST := rfl
@[simp] theorem State.advance_fb : (s.advance).fb = s.fb := rfl
@[simp] theorem State.advance_latch : (s.advance).latch = s.latch := rfl
@[simp] theorem State.advance_quitReq : (s.advance).quitReq = s.quitReq := rfl
@[simp] theorem State.advance_run : (s.advance).run = s.run := rfl
@[simp] theorem State.advance_presentCount : (s.advance).presentCount = s.presentCount := rfl
@[simp] theorem State.advance_now : (s.advance).now = s.now := rfl
@[simp] theorem State.advance_rand : (s.advance).rand = s.rand := rfl
@[simp] theorem State.advance_host : (s.advance).host = s.host := rfl
@[simp] theorem State.advance_draws : (s.advance).draws = s.draws := rfl
@[simp] theorem State.advance_getV (q : Reg) : (s.advance).getV q = s.getV q := rfl

@[simp] theorem State.halt_run (h : HaltReason) : (s.halt h).run = .halted h := rfl
@[simp] theorem State.halt_mem (h : HaltReason) : (s.halt h).mem = s.mem := rfl
@[simp] theorem State.halt_V (h : HaltReason) : (s.halt h).V = s.V := rfl
@[simp] theorem State.halt_I (h : HaltReason) : (s.halt h).I = s.I := rfl
@[simp] theorem State.halt_pc (h : HaltReason) : (s.halt h).pc = s.pc := rfl
@[simp] theorem State.halt_sp (h : HaltReason) : (s.halt h).sp = s.sp := rfl
@[simp] theorem State.halt_stack (h : HaltReason) : (s.halt h).stack = s.stack := rfl
@[simp] theorem State.halt_DT (h : HaltReason) : (s.halt h).DT = s.DT := rfl
@[simp] theorem State.halt_ST (h : HaltReason) : (s.halt h).ST = s.ST := rfl
@[simp] theorem State.halt_fb (h : HaltReason) : (s.halt h).fb = s.fb := rfl
@[simp] theorem State.halt_latch (h : HaltReason) : (s.halt h).latch = s.latch := rfl
@[simp] theorem State.halt_quitReq (h : HaltReason) : (s.halt h).quitReq = s.quitReq := rfl
@[simp] theorem State.halt_presentCount (h : HaltReason) : (s.halt h).presentCount = s.presentCount := rfl
@[simp] theorem State.halt_now (h : HaltReason) : (s.halt h).now = s.now := rfl
@[simp] theorem State.halt_rand (h : HaltReason) : (s.halt h).rand = s.rand := rfl
@[simp] theorem State.halt_host (h : HaltReason) : (s.halt h).host = s.host := rfl
@[simp] theorem State.halt_draws (h : HaltReason) : (s.halt h).draws = s.draws := rfl
@[simp] theorem State.halt_getV (h : HaltReason) (q : Reg) : (s.halt h).getV q = s.getV q := rfl

@[simp] theorem State.raise_run (k : FaultKind) (w : Option Word) (c : Option FaultCause) : (s.raise k w c).run = .faulted ⟨k, w, s.pc, c⟩ := rfl
@[simp] theorem State.raise_mem (k : FaultKind) (w : Option Word) (c : Option FaultCause) : (s.raise k w c).mem = s.mem := rfl
@[simp] theorem State.raise_V (k : FaultKind) (w : Option Word) (c : Option FaultCause) : (s.raise k w c).V = s.V := rfl
@[simp] theorem State.raise_I (k : FaultKind) (w : Option Word) (c : Option FaultCause) : (s.raise k w c).I = s.I := rfl
@[simp] theorem State.raise_pc (k : FaultKind) (w : Option Word) (c : Option FaultCause) : (s.raise k w c).pc = s.pc := rfl
@[simp] theorem State.raise_sp (k : FaultKind) (w : Option Word) (c : Option FaultCause) : (s.raise k w c).sp = s.sp := rfl
@[simp] theorem State.raise_stack (k : FaultKind) (w : Option Word) (c : Option FaultCause) : (s.raise k w c).stack = s.stack := rfl
@[simp] theorem State.raise_DT (k : FaultKind) (w : Option Word) (c : Option FaultCause) : (s.raise k w c).DT = s.DT := rfl
@[simp] theorem State.raise_ST (k : FaultKind) (w : Option Word) (c : Option FaultCause) : (s.raise k w c).ST = s.ST := rfl
@[simp] theorem State.raise_fb (k : FaultKind) (w : Option Word) (c : Option FaultCause) : (s.raise k w c).fb = s.fb := rfl
@[simp] theorem State.raise_latch (k : FaultKind) (w : Option Word) (c : Option FaultCause) : (s.raise k w c).latch = s.latch := rfl
@[simp] theorem State.raise_quitReq (k : FaultKind) (w : Option Word) (c : Option FaultCause) : (s.raise k w c).quitReq = s.quitReq := rfl
@[simp] theorem State.raise_presentCount (k : FaultKind) (w : Option Word) (c : Option FaultCause) : (s.raise k w c).presentCount = s.presentCount := rfl
@[simp] theorem State.raise_now (k : FaultKind) (w : Option Word) (c : Option FaultCause) : (s.raise k w c).now = s.now := rfl
@[simp] theorem State.raise_rand (k : FaultKind) (w : Option Word) (c : Option FaultCause) : (s.raise k w c).rand = s.rand := rfl
@[simp] theorem State.raise_host (k : FaultKind) (w : Option Word) (c : Option FaultCause) : (s.raise k w c).host = s.host := rfl
@[simp] theorem State.raise_draws (k : FaultKind) (w : Option Word) (c : Option FaultCause) : (s.raise k w c).draws = s.draws := rfl
@[simp] theorem State.raise_getV (k : FaultKind) (w : Option Word) (c : Option FaultCause) (q : Reg) : (s.raise k w c).getV q = s.getV q := rfl

@[simp] theorem State.outOfBounds_run (i : Instr) (c : FaultCause) : (s.outOfBounds i c).run = .faulted ⟨.outOfBoundsAccess, some (encode i), s.pc, some c⟩ := rfl
@[simp] theorem State.outOfBounds_mem (i : Instr) (c : FaultCause) : (s.outOfBounds i c).mem = s.mem := rfl
@[simp] theorem State.outOfBounds_V (i : Instr) (c : FaultCause) : (s.outOfBounds i c).V = s.V := rfl
@[simp] theorem State.outOfBounds_I (i : Instr) (c : FaultCause) : (s.outOfBounds i c).I = s.I := rfl
@[simp] theorem State.outOfBounds_pc (i : Instr) (c : FaultCause) : (s.outOfBounds i c).pc = s.pc := rfl
@[simp] theorem State.outOfBounds_sp (i : Instr) (c : FaultCause) : (s.outOfBounds i c).sp = s.sp := rfl
@[simp] theorem State.outOfBounds_stack (i : Instr) (c : FaultCause) : (s.outOfBounds i c).stack = s.stack := rfl
@[simp] theorem State.outOfBounds_DT (i : Instr) (c : FaultCause) : (s.outOfBounds i c).DT = s.DT := rfl
@[simp] theorem State.outOfBounds_ST (i : Instr) (c : FaultCause) : (s.outOfBounds i c).ST = s.ST := rfl
@[simp] theorem State.outOfBounds_fb (i : Instr) (c : FaultCause) : (s.outOfBounds i c).fb = s.fb := rfl
@[simp] theorem State.outOfBounds_latch (i : Instr) (c : FaultCause) : (s.outOfBounds i c).latch = s.latch := rfl
@[simp] theorem State.outOfBounds_quitReq (i : Instr) (c : FaultCause) : (s.outOfBounds i c).quitReq = s.quitReq := rfl
@[simp] theorem State.outOfBounds_presentCount (i : Instr) (c : FaultCause) : (s.outOfBounds i c).presentCount = s.presentCount := rfl
@[simp] theorem State.outOfBounds_now (i : Instr) (c : FaultCause) : (s.outOfBounds i c).now = s.now := rfl
@[simp] theorem State.outOfBounds_rand (i : Instr) (c : FaultCause) : (s.outOfBounds i c).rand = s.rand := rfl
@[simp] theorem State.outOfBounds_host (i : Instr) (c : FaultCause) : (s.outOfBounds i c).host = s.host := rfl
@[simp] theorem State.outOfBounds_draws (i : Instr) (c : FaultCause) : (s.outOfBounds i c).draws = s.draws := rfl
@[simp] theorem State.outOfBounds_getV (i : Instr) (c : FaultCause) (q : Reg) : (s.outOfBounds i c).getV q = s.getV q := rfl

@[simp] theorem State.loadRegs_mem (bs : List Byte) : (s.loadRegs bs).mem = s.mem := by
  simp only [State.loadRegs]
@[simp] theorem State.loadRegs_I (bs : List Byte) : (s.loadRegs bs).I = s.I := by
  simp only [State.loadRegs]
@[simp] theorem State.loadRegs_pc (bs : List Byte) : (s.loadRegs bs).pc = s.pc := by
  simp only [State.loadRegs]
@[simp] theorem State.loadRegs_sp (bs : List Byte) : (s.loadRegs bs).sp = s.sp := by
  simp only [State.loadRegs]
@[simp] theorem State.loadRegs_stack (bs : List Byte) : (s.loadRegs bs).stack = s.stack := by
  simp only [State.loadRegs]
@[simp] theorem State.loadRegs_DT (bs : List Byte) : (s.loadRegs bs).DT = s.DT := by
  simp only [State.loadRegs]
@[simp] theorem State.loadRegs_ST (bs : List Byte) : (s.loadRegs bs).ST = s.ST := by
  simp only [State.loadRegs]
@[simp] theorem State.loadRegs_fb (bs : List Byte) : (s.loadRegs bs).fb = s.fb := by
  simp only [State.loadRegs]
@[simp] theorem State.loadRegs_latch (bs : List Byte) : (s.loadRegs bs).latch = s.latch := by
  simp only [State.loadRegs]
@[simp] theorem State.loadRegs_quitReq (bs : List Byte) : (s.loadRegs bs).quitReq = s.quitReq := by
  simp only [State.loadRegs]
@[simp] theorem State.loadRegs_run (bs : List Byte) : (s.loadRegs bs).run = s.run := by
  simp only [State.loadRegs]
@[simp] theorem State.loadRegs_presentCount (bs : List Byte) : (s.loadRegs bs).presentCount = s.presentCount := by
  simp only [State.loadRegs]
@[simp] theorem State.loadRegs_now (bs : List Byte) : (s.loadRegs bs).now = s.now := by
  simp only [State.loadRegs]
@[simp] theorem State.loadRegs_rand (bs : List Byte) : (s.loadRegs bs).rand = s.rand := by
  simp only [State.loadRegs]
@[simp] theorem State.loadRegs_host (bs : List Byte) : (s.loadRegs bs).host = s.host := by
  simp only [State.loadRegs]
@[simp] theorem State.loadRegs_draws (bs : List Byte) : (s.loadRegs bs).draws = s.draws := by
  simp only [State.loadRegs]

@[simp] theorem State.faultRegs_mem (n : Nat) : (s.faultRegs n).mem = s.mem := by
  simp only [State.faultRegs]
@[simp] theorem State.faultRegs_I (n : Nat) : (s.faultRegs n).I = s.I := by
  simp only [State.faultRegs]
@[simp] theorem State.faultRegs_pc (n : Nat) : (s.faultRegs n).pc = s.pc := by
  simp only [State.faultRegs]
@[simp] theorem State.faultRegs_sp (n : Nat) : (s.faultRegs n).sp = s.sp := by
  simp only [State.faultRegs]
@[simp] theorem State.faultRegs_stack (n : Nat) : (s.faultRegs n).stack = s.stack := by
  simp only [State.faultRegs]
@[simp] theorem State.faultRegs_DT (n : Nat) : (s.faultRegs n).DT = s.DT := by
  simp only [State.faultRegs]
@[simp] theorem State.faultRegs_ST (n : Nat) : (s.faultRegs n).ST = s.ST := by
  simp only [State.faultRegs]
@[simp] theorem State.faultRegs_fb (n : Nat) : (s.faultRegs n).fb = s.fb := by
  simp only [State.faultRegs]
@[simp] theorem State.faultRegs_latch (n : Nat) : (s.faultRegs n).latch = s.latch := by
  simp only [State.faultRegs]
@[simp] theorem State.faultRegs_quitReq (n : Nat) : (s.faultRegs n).quitReq = s.quitReq := by
  simp only [State.faultRegs]
@[simp] theorem State.faultRegs_run (n : Nat) : (s.faultRegs n).run = s.run := by
  simp only [State.faultRegs]
@[simp] theorem State.faultRegs_presentCount (n : Nat) : (s.faultRegs n).presentCount = s.presentCount := by
  simp only [State.faultRegs]
@[simp] theorem State.faultRegs_now (n : Nat) : (s.faultRegs n).now = s.now := by
  simp only [State.faultRegs]
@[simp] theorem State.faultRegs_rand (n : Nat) : (s.faultRegs n).rand = s.rand := by
  simp only [State.faultRegs]
@[simp] theorem State.faultRegs_host (n : Nat) : (s.faultRegs n).host = s.host := by
  simp only [State.faultRegs]
@[simp] theorem State.faultRegs_draws (n : Nat) : (s.faultRegs n).draws = s.draws := by
  simp only [State.faultRegs]

@[simp] theorem State.tickTimers_DT : (s.tickTimers).DT = s.DT.tick s.now := rfl
@[simp] theorem State.tickTimers_ST : (s.tickTimers).ST = s.ST.tick s.now := rfl
@[simp] theorem State.tickTimers_mem : (s.tickTimers).mem = s.mem := rfl
@[simp] theorem State.tickTimers_V : (s.tickTimers).V = s.V := rfl
@[simp] theorem State.tickTimers_I : (s.tickTimers).I = s.I := rfl
@[simp] theorem State.tickTimers_pc : (s.tickTimers).pc = s.pc := rfl
@[simp] theorem State.tickTimers_sp : (s.tickTimers).sp = s.sp := rfl
@[simp] theorem State.tickTimers_stack : (s.tickTimers).stack = s.stack := rfl
@[simp] theorem State.tickTimers_fb : (s.tickTimers).fb = s.fb := rfl
@[simp] theorem State.tickTimers_latch : (s.tickTimers).latch = s.latch := rfl
@[simp] theorem State.tickTimers_quitReq : (s.tickTimers).quitReq = s.quitReq := rfl
@[simp] theorem State.tickTimers_run : (s.tickTimers).run = s.run := rfl
@[simp] theorem State.tickTimers_presentCount : (s.tickTimers).presentCount = s.presentCount := rfl
@[simp] theorem State.tickTimers_now : (s.tickTimers).now = s.now := rfl
@[simp] theorem State.tickTimers_rand : (s.tickTimers).rand = s.rand := rfl
@[simp] theorem State.tickTimers_host : (s.tickTimers).host = s.host := rfl
@[simp] theorem State.tickTimers_draws : (s.tickTimers).draws = s.draws := rfl
@[simp] theorem State.tickTimers_getV (q : Reg) : (s.tickTimers).getV q = s.getV q := rfl

@[simp] theorem State.present_presentCount : (s.present).presentCount = s.presentCount + 1 := rfl
@[simp] theorem State.present_mem : (s.present).mem = s.mem := rfl
@[simp] theorem State.present_V : (s.present).V = s.V := rfl
@[simp] theorem State.present_I : (s.present).I = s.I := rfl
@[simp] theorem State.present_pc : (s.present).pc = s.pc := rfl
@[simp] theorem State.present_sp : (s.present).sp = s.sp := rfl
@[simp] theorem State.present_stack : (s.present).stack = s.stack := rfl
@[simp] theorem State.present_DT : (s.present).DT = s.DT := rfl
@[simp] theorem State.present_ST : (s.present).ST = s.ST := rfl
@[simp] theorem State.present_fb : (s.present).fb = s.fb := rfl
@[simp] theorem State.present_latch : (s.present).latch = s.latch := rfl
@[simp] theorem State.present_quitReq : (s.present).quitReq = s.quitReq := rfl
@[simp] theorem State.present_run : (s.present).run = s.run := rfl
@[simp] theorem State.present_now : (s.present).now = s.now := rfl
@[simp] theorem State.present_rand : (s.present).rand = s.rand := rfl
@[simp] theorem State.present_host : (s.present).host = s.host := rfl
@[simp] theorem State.present_draws : (s.present).draws = s.draws := rfl
@[simp] theorem State.present_getV (q : Reg) : (s.present).getV q = s.getV q := rfl

@[simp] theorem State.faultDraw_presentCount (x0 y0 n : Nat) : (s.faultDraw x0 y0 n).presentCount = Config.faultPresent s.draws := by
  simp only [State.faultDraw]
@[simp] theorem State.faultDraw_mem (x0 y0 n : Nat) : (s.faultDraw x0 y0 n).mem = s.mem := by
  simp only [State.faultDraw]
@[simp] theorem State.faultDraw_I (x0 y0 n : Nat) : (s.faultDraw x0 y0 n).I = s.I := by
  simp only [State.faultDraw]
@[simp] theorem State.faultDraw_pc (x0 y0 n : Nat) : (s.faultDraw x0 y0 n).pc = s.pc := by
  simp only [State.faultDraw]
@[simp] theorem State.faultDraw_sp (x0 y0 n : Nat) : (s.faultDraw x0 y0 n).sp = s.sp := by
  simp only [State.faultDraw]
@[simp] theorem State.faultDraw_stack (x0 y0 n : Nat) : (s.faultDraw x0 y0 n).stack = s.stack := by
  simp only [State.faultDraw]
@[simp] theorem State.faultDraw_DT (x0 y0 n : Nat) : (s.faultDraw x0 y0 n).DT = s.DT := by
  simp only [State.faultDraw]
@[simp] theorem State.faultDraw_ST (x0 y0 n : Nat) : (s.faultDraw x0 y0 n).ST = s.ST := by
  simp only [State.faultDraw]
@[simp] theorem State.faultDraw_latch (x0 y0 n : Nat) : (s.faultDraw x0 y0 n).latch = s.latch := by
  simp only [State.faultDraw]
@[simp] theorem State.faultDraw_quitReq (x0 y0 n : Nat) : (s.faultDraw x0 y0 n).quitReq = s.quitReq := by
  simp only [State.faultDraw]
@[simp] theorem State.faultDraw_run (x0 y0 n : Nat) : (s.faultDraw x0 y0 n).run = s.run := by
  simp only [State.faultDraw]
@[simp] theorem State.faultDraw_now (x0 y0 n : Nat) : (s.faultDraw x0 y0 n).now = s.now := by
  simp only [State.faultDraw]
@[simp] theorem State.faultDraw_rand (x0 y0 n : Nat) : (s.faultDraw x0 y0 n).rand = s.rand := by
  simp only [State.faultDraw]
@[simp] theorem State.faultDraw_host (x0 y0 n : Nat) : (s.faultDraw x0 y0 n).host = s.host := by
  simp only [State.faultDraw]
@[simp] theorem State.faultDraw_draws (x0 y0 n : Nat) : (s.faultDraw x0 y0 n).draws = s.draws := by
  simp only [State.faultDraw]

@[simp] theorem State.latchClear_latch : (s.latchClear).latch = [] := rfl
@[simp] theorem State.latchClear_mem : (s.latchClear).mem = s.mem := rfl
@[simp] theorem State.latchClear_V : (s.latchClear).V = s.V := rfl
@[simp] theorem State.latchClear_I : (s.latchClear).I = s.I := rfl
@[simp] theorem State.latchClear_pc : (s.latchClear).pc = s.pc := rfl
@[simp] theorem State.latchClear_sp : (s.latchClear).sp = s.sp := rfl
@[simp] theorem State.latchClear_stack : (s.latchClear).stack = s.stack := rfl
@[simp] theorem State.latchClear_DT : (s.latchClear).DT = s.DT := rfl
@[simp] theorem State.latchClear_ST : (s.latchClear).ST = s.ST := rfl
@[simp] theorem State.latchClear_fb : (s.latchClear).fb = s.fb := rfl
@[simp] theorem State.latchClear_quitReq : (s.latchClear).quitReq = s.quitReq := rfl
@[simp] theorem State.latchClear_run : (s.latchClear).run = s.run := rfl
@[simp] theorem State.latchClear_presentCount : (s.latchClear).presentCount = s.presentCount := rfl
@[simp] theorem State.latchClear_now : (s.latchClear).now = s.now := rfl
@[simp] theorem State.latchClear_rand : (s.latchClear).rand = s.rand := rfl
@[simp] theorem State.latchClear_host : (s.latchClear).host = s.host := rfl
@[simp] theorem State.latchClear_draws : (s.latchClear).draws = s.draws := rfl
@[simp] theorem State.latchClear_getV (q : Reg) : (s.latchClear).getV q = s.getV q := rfl

@[simp] theorem State.skipIf_mem (c : Bool) : (s.skipIf c).mem = s.mem := by cases c <;> rfl
@[simp] theorem State.skipIf_V (c : Bool) : (s.skipIf c).V = s.V := by cases c <;> rfl
@[simp] theorem State.skipIf_I (c : Bool) : (s.skipIf c).I = s.I := by cases c <;> rfl
@[simp] theorem State.skipIf_pc (c : Bool) : (s.skipIf c).pc = if c then s.pc + 4 else s.pc + 2 := by cases c <;> rfl
@[simp] theorem State.skipIf_sp (c : Bool) : (s.skipIf c).sp = s.sp := by cases c <;> rfl
@[simp] theorem State.skipIf_stack (c : Bool) : (s.skipIf c).stack = s.stack := by cases c <;> rfl
@[simp] theorem State.skipIf_DT (c : Bool) : (s.skipIf c).DT = s.DT := by cases c <;> rfl
@[simp] theorem State.skipIf_ST (c : Bool) : (s.skipIf c).ST = s.ST := by cases c <;> rfl
@[simp] theorem State.skipIf_fb (c : Bool) : (s.skipIf c).fb = s.fb := by cases c <;> rfl
@[simp] theorem State.skipIf_latch (c : Bool) : (s.skipIf c).latch = s.latch := by cases c <;> rfl
@[simp] theorem State.skipIf_quitReq (c : Bool) : (s.skipIf c).quitReq = s.quitReq := by cases c <;> rfl
@[simp] theorem State.skipIf_run (c : Bool) : (s.skipIf c).run = s.run := by cases c <;> rfl
@[simp] theorem State.skipIf_presentCount (c : Bool) : (s.skipIf c).presentCount = s.presentCount := by cases c <;> rfl
@[simp] theorem State.skipIf_now (c : Bool) : (s.skipIf c).now = s.now := by cases c <;> rfl
@[simp] theorem State.skipIf_rand (c : Bool) : (s.skipIf c).rand = s.rand := by cases c <;> rfl
@[simp] theorem State.skipIf_host (c : Bool) : (s.skipIf c).host = s.host := by cases c <;> rfl
@[simp] theorem State.skipIf_draws (c : Bool) : (s.skipIf c).draws = s.draws := by cases c <;> rfl
@[simp] theorem State.skipIf_getV (c : Bool) (q : Reg) : (s.skipIf c).getV q = s.getV q := by cases c <;> rfl

end Sys2Proof.Machine
end

