-- ==== Sys2Proof/Laws/Engine.lean ====
section
/-! SUPPORT. The framebuffer engine: pixels after a plot, and what the sprite loops draw, as the mask of pixels they toggle. -/
namespace Sys2Proof.Machine

theorem Framebuffer.pixel_plot (fb : Framebuffer) (x x' : Fin 64) (y y' : Fin 32) (on : Bool) :
    (fb.plot x y on).pixel x' y' = if x' = x ∧ y' = y then on else fb.pixel x' y' := by
  simp only [Framebuffer.pixel, Framebuffer.plot, Vector.getElem_set, Fin.ext_iff]
  by_cases hy : y.val = y'.val
  · by_cases hx : x.val = x'.val
    · simp [hx, hy]
    · simp [hx, hy, Ne.symm hx]
  · simp [hy, Ne.symm hy]

@[simp] theorem fbClear_pixel (x : Fin 64) (y : Fin 32) : fbClear.pixel x y = false := by
  simp [fbClear, Framebuffer.pixel]

/-- Two framebuffers with the same pixels are the same (R44). -/
theorem Framebuffer.ext_pixel {f g : Framebuffer} (h : ∀ x y, f.pixel x y = g.pixel x y) : f = g := by
  apply Vector.ext
  intro j hj
  apply Vector.ext
  intro i hi
  exact h ⟨i, hi⟩ ⟨j, hj⟩

/-- `d'` is `d` with exactly the pixels of the mask `M` toggled, each collision recorded (R242, R244). -/
def Toggles (M : Fin 64 → Fin 32 → Bool) (d d' : Drawing) : Prop :=
  (∀ x y, d'.1.pixel x y = (d.1.pixel x y ^^ M x y)) ∧
    (d'.2 = true ↔ d.2 = true ∨ ∃ x y, M x y = true ∧ d.1.pixel x y = true)

theorem Toggles.none {M : Fin 64 → Fin 32 → Bool} (d : Drawing) (h : ∀ x y, M x y = false) : Toggles M d d := by
  simp [Toggles, h]

/-- Drawing a mask and then a disjoint one draws their union. -/
theorem Toggles.trans {M N K : Fin 64 → Fin 32 → Bool} {d d' d'' : Drawing} (hM : Toggles M d d') (hN : Toggles N d' d'')
    (hK : ∀ x y, K x y = (M x y || N x y)) (hdis : ∀ x y, N x y = true → M x y = false) : Toggles K d d'' := by
  refine ⟨fun x y => ?_, ?_⟩
  · rw [hN.1, hM.1, hK]
    cases hn : N x y
    · simp
    · simp [hdis x y hn]
  · rw [hN.2, hM.2, or_assoc]
    refine or_congr_right ⟨?_, ?_⟩
    · rintro (⟨x, y, hm, hp⟩ | ⟨x, y, hn, hp⟩)
      · exact ⟨x, y, by simp [hK, hm], hp⟩
      · refine ⟨x, y, by simp [hK, hn], ?_⟩
        simpa [hM.1, hdis x y hn] using hp
    · rintro ⟨x, y, hk, hp⟩
      rw [hK, Bool.or_eq_true] at hk
      by_cases hm : M x y = true
      · exact .inl ⟨x, y, hm, hp⟩
      · refine .inr ⟨x, y, hk.resolve_left hm, ?_⟩
        simpa [hM.1, Bool.eq_false_iff.2 hm] using hp

theorem drawBit_toggles (px py : Nat) (on : Bool) (d : Drawing) :
    Toggles (fun x y => on && decide (x.val = px ∧ y.val = py)) d (drawBit px py on d) := by
  unfold drawBit
  split
  · split
    · rename_i hon h
      subst hon
      refine ⟨fun x y => ?_, ?_⟩
      · simp only [Framebuffer.xorWrite, if_true, Framebuffer.pixel_plot, Bool.true_and]
        by_cases hxy : x = ⟨px, h.1⟩ ∧ y = ⟨py, h.2⟩
        · obtain ⟨rfl, rfl⟩ := hxy
          simp
        · have : ¬ (x.val = px ∧ y.val = py) := fun hh => hxy ⟨Fin.ext hh.1, Fin.ext hh.2⟩
          simp [hxy, this]
      · simp only [Framebuffer.xorWrite, if_true, Bool.or_eq_true, Bool.true_and, decide_eq_true_eq]
        refine or_congr_right ⟨fun hp => ⟨⟨px, h.1⟩, ⟨py, h.2⟩, ⟨rfl, rfl⟩, hp⟩, ?_⟩
        rintro ⟨x, y, ⟨hx, hy⟩, hp⟩
        obtain rfl : x = ⟨px, h.1⟩ := Fin.ext hx
        obtain rfl : y = ⟨py, h.2⟩ := Fin.ext hy
        exact hp
    · rename_i h
      refine Toggles.none d fun x y => ?_
      have : ¬ (x.val = px ∧ y.val = py) := fun hh => h ⟨hh.1 ▸ x.isLt, hh.2 ▸ y.isLt⟩
      simp [this]
  · rename_i hon
    exact Toggles.none d fun x y => by simp [hon]

/-- Columns c to c + k - 1 of one sprite row toggle the pixels of the row whose bit is set (R246, R247). -/
theorem drawCols_toggles (x0 py : Nat) (b : Byte) (c k : Nat) (d : Drawing) :
    Toggles (fun x y => decide (y.val = py ∧ x0 + c ≤ x.val ∧ x.val < x0 + c + k) && b.getLsbD (7 - (x.val - x0))) d
      (drawCols x0 py b c k d) := by
  induction k generalizing c d with
  | zero => exact Toggles.none d fun x y => by simp
  | succ k ih =>
    refine Toggles.trans (drawBit_toggles (x0 + c) py (b.getLsbD (7 - c)) d) (ih (c + 1) _) (fun x y => ?_) fun x y h => ?_
    · by_cases hx : x.val = x0 + c
      · have e : x.val - x0 = c := by omega
        have h1 : ¬ (x0 + (c + 1) ≤ x0 + c) := by omega
        have h2 : x0 + c < x0 + c + (k + 1) := by omega
        by_cases hy : y.val = py <;> simp [hx, hy]
      · have : (x0 + c ≤ x.val ∧ x.val < x0 + c + (k + 1)) ↔ (x0 + (c + 1) ≤ x.val ∧ x.val < x0 + (c + 1) + k) := by omega
        simp [hx, this]
    · have : ¬ (x.val = x0 + c) := by simp at h; omega
      simp [this]

/-- The rows of a sprite toggle the pixels of its box whose bit is set (R246). -/
theorem drawRows_toggles (x0 y0 : Nat) (bs : List Byte) (d : Drawing) :
    Toggles (fun x y => inSpriteBox x0 y0 bs.length x.val y.val &&
      (bs.getD (y.val - y0) 0#8).getLsbD (7 - (x.val - x0))) d (drawRows x0 y0 bs d) := by
  induction bs generalizing y0 d with
  | nil => exact Toggles.none d fun x y => by simp [inSpriteBox]
  | cons b bs ih =>
    refine Toggles.trans (drawCols_toggles x0 y0 b 0 8 d) (ih (y0 + 1) _) (fun x y => ?_) fun x y h => ?_
    · by_cases hy : y.val = y0
      · simp [inSpriteBox, hy]
      · by_cases hy' : y0 ≤ y.val
        · have e : y.val - y0 = (y.val - (y0 + 1)) + 1 := by omega
          have : (x0 ≤ x.val ∧ x.val < x0 + 8 ∧ y0 ≤ y.val ∧ y.val < y0 + (bs.length + 1)) ↔
              (x0 ≤ x.val ∧ x.val < x0 + 8 ∧ y0 + 1 ≤ y.val ∧ y.val < y0 + 1 + bs.length) := by omega
          simp only [inSpriteBox, List.length_cons, this, e, List.getD_cons_succ, hy, false_and, decide_false,
            Bool.false_and, Bool.false_or]
        · have h1 : ¬ (y0 + 1 ≤ y.val) := by omega
          simp [inSpriteBox, hy, hy', h1]
    · have : ¬ (y.val = y0) := by simp [inSpriteBox] at h; omega
      simp [this]

@[simp] theorem State.faultDraw_pixel (s : State) (x0 y0 n : Nat) (x : Fin 64) (y : Fin 32) :
    (s.faultDraw x0 y0 n).fb.pixel x y =
      if inSpriteBox x0 y0 n x.val y.val then Config.faultPixel s.draws x.val y.val else s.fb.pixel x y := by
  simp [State.faultDraw, Framebuffer.pixel]

end Sys2Proof.Machine
end

