-- ==== Sys2Proof/Laws/Memory.lean ====
section
/-! SUPPORT. Memory: read after write, the canonical form kept by every operation, and what the bounded runs of reads and
writes answer. -/
namespace Sys2Proof.Machine

theorem Memory.read_cons (a : Nat) (v : Byte) (m : Memory) (c : Nat) :
    Memory.read (Memory.cons a v m) c =
      if v = Memory.background a then Memory.read m c else if c = a then v else Memory.read m c := by
  unfold Memory.cons
  split <;> simp [Memory.read]

/-- Below every listed address, memory reads as the background. -/
theorem Memory.read_of_lt_all {m : Memory} {a : Nat} (h : ∀ c ∈ m, a < c.1) : Memory.read m a = Memory.background a := by
  induction m with
  | nil => rfl
  | cons c m ih =>
    obtain ⟨b, v⟩ := c
    have hb : a < b := h (b, v) (by simp)
    simp only [Memory.read, if_neg (Nat.ne_of_lt hb)]
    exact ih fun d hd => h d (by simp [hd])

theorem Memory.wf_nil : Memory.wf [] := ⟨List.Pairwise.nil, by simp⟩

theorem Memory.wf_cons {b : Nat} {w : Byte} {m : Memory} :
    Memory.wf ((b, w) :: m) ↔
      (∀ c ∈ m, b < c.1) ∧ b < Config.memSize ∧ w ≠ Memory.background b ∧ Memory.wf m := by
  simp only [Memory.wf, List.pairwise_cons, List.forall_mem_cons]
  tauto

theorem Memory.mem_cons {a : Nat} {v : Byte} {m : Memory} {c : Host.Cell} (h : c ∈ Memory.cons a v m) :
    c = (a, v) ∨ c ∈ m := by
  unfold Memory.cons at h
  split at h
  · exact .inr h
  · simpa using h

/-- A cell of the new memory is the one written or an old one. -/
theorem Memory.mem_put {m : Memory} {a : Nat} {v : Byte} {c : Host.Cell} (h : c ∈ Memory.put m a v) :
    c = (a, v) ∨ c ∈ m := by
  induction m with
  | nil => exact Memory.mem_cons h
  | cons d m ih =>
    obtain ⟨b, w⟩ := d
    simp only [Memory.put] at h
    split at h
    · exact Memory.mem_cons h
    · split at h
      · rcases Memory.mem_cons h with h | h
        · exact .inl h
        · exact .inr (by simp [h])
      · rcases List.mem_cons.1 h with h | h
        · exact .inr (by simp [h])
        · rcases ih h with h | h
          · exact .inl h
          · exact .inr (by simp [h])

theorem Memory.cons_wf {a : Nat} {v : Byte} {m : Memory} (h : Memory.wf m) (ha : a < Config.memSize)
    (hlt : ∀ c ∈ m, a < c.1) : Memory.wf (Memory.cons a v m) := by
  unfold Memory.cons
  split
  · exact h
  · rename_i hv
    exact Memory.wf_cons.2 ⟨hlt, ha, hv, h⟩

/-- A write inside memory keeps the canonical form. -/
theorem Memory.put_wf {m : Memory} {a : Nat} (v : Byte) (h : Memory.wf m) (ha : a < Config.memSize) :
    Memory.wf (Memory.put m a v) := by
  induction m with
  | nil => exact Memory.cons_wf Memory.wf_nil ha (by simp)
  | cons c m ih =>
    obtain ⟨b, w⟩ := c
    obtain ⟨hlt, hb, hw, hm⟩ := Memory.wf_cons.1 h
    simp only [Memory.put]
    split
    · rename_i hab
      refine Memory.cons_wf h ha fun c hc => ?_
      rcases List.mem_cons.1 hc with rfl | hc
      · exact hab
      · exact hab.trans (hlt c hc)
    · split
      · rename_i hab
        exact Memory.cons_wf hm ha fun c hc => hab ▸ hlt c hc
      · refine Memory.wf_cons.2 ⟨fun c hc => ?_, hb, hw, ih hm⟩
        rcases Memory.mem_put hc with rfl | hc
        · show b < a
          omega
        · exact hlt c hc

/-- Reading the address just written gives the value written. -/
theorem Memory.read_put_same {m : Memory} (a : Nat) (v : Byte) (h : Memory.wf m) :
    Memory.read (Memory.put m a v) a = v := by
  induction m with
  | nil => simp only [Memory.put, Memory.read_cons, Memory.read]; split <;> simp_all
  | cons c m ih =>
    obtain ⟨b, w⟩ := c
    obtain ⟨hlt, -, -, hm⟩ := Memory.wf_cons.1 h
    simp only [Memory.put]
    split
    · rename_i hab
      have hbg : Memory.read ((b, w) :: m) a = Memory.background a := by
        refine Memory.read_of_lt_all fun c hc => ?_
        rcases List.mem_cons.1 hc with rfl | hc
        · exact hab
        · exact hab.trans (hlt c hc)
      rw [Memory.read_cons, hbg]
      split <;> simp_all
    · split
      · rename_i hab
        have hbg : Memory.read m a = Memory.background a := Memory.read_of_lt_all fun c hc => hab ▸ hlt c hc
        rw [Memory.read_cons, hbg]
        split <;> simp_all
      · rename_i hne
        simp only [Memory.read, if_neg hne]
        exact ih hm

/-- A write leaves every other address alone. -/
theorem Memory.read_put_other (m : Memory) {a c : Nat} (v : Byte) (hc : c ≠ a) :
    Memory.read (Memory.put m a v) c = Memory.read m c := by
  induction m with
  | nil => simp [Memory.put, Memory.read_cons, hc]
  | cons d m ih =>
    obtain ⟨b, w⟩ := d
    simp only [Memory.put]
    split
    · simp [Memory.read_cons, hc]
    · split
      · rename_i hab
        subst hab
        simp [Memory.read_cons, Memory.read, hc]
      · simp only [Memory.read, ih]

/-- A bounded read answers the byte exactly when the address exists (R83). -/
theorem Memory.load_eq_some {m : Memory} {a : Nat} {b : Byte} :
    Memory.load m a = some b ↔ a < Config.memSize ∧ b = Memory.read m a := by
  unfold Memory.load
  split <;> simp_all [eq_comm]

/-- A bounded write answers exactly when the address exists (R84). -/
theorem Memory.store_eq_some {m m' : Memory} {a : Nat} {v : Byte} :
    Memory.store m a v = some m' ↔ a < Config.memSize ∧ m' = Memory.put m a v := by
  unfold Memory.store
  split <;> simp_all [eq_comm]

/-- Everything a run of reads can answer: the bytes when all of it is inside memory or it is empty, else the first address
past the end. -/
theorem Memory.loadRun_eq (m : Memory) (a n : Nat) :
    Memory.loadRun m a n =
      if n = 0 ∨ a + n ≤ Config.memSize then .ok ((List.range n).map fun k => Memory.read m (a + k))
      else .error (max a Config.memSize) := by
  induction n generalizing a with
  | zero => simp [Memory.loadRun]
  | succ n ih =>
    simp only [Memory.loadRun, Memory.load, ih (a + 1)]
    by_cases ha : a < Config.memSize
    · by_cases hn : n = 0 ∨ a + 1 + n ≤ Config.memSize
      · have : a + (n + 1) ≤ Config.memSize := by omega
        simp [ha, this, List.range_succ_eq_map, Function.comp_def, Nat.add_assoc, Nat.add_comm 1]
      · have : ¬ a + (n + 1) ≤ Config.memSize := by omega
        simp only [ha, hn, this, if_true, if_false, Nat.add_one_ne_zero, false_or]
        congr 1
        omega
    · have : ¬ a + (n + 1) ≤ Config.memSize := by omega
      simp only [ha, this, if_false, Nat.add_one_ne_zero, false_or]
      congr 1
      omega

/-- A run of writes answers exactly when all of it is inside memory or it is empty; else the first address past the end. -/
theorem Memory.storeRun_eq (m : Memory) (a : Nat) (bs : List Byte) :
    Memory.storeRun m a bs =
      if bs = [] ∨ a + bs.length ≤ Config.memSize then .ok (Memory.fill m a bs)
      else .error (max a Config.memSize) := by
  induction bs generalizing m a with
  | nil => simp [Memory.storeRun, Memory.fill]
  | cons b bs ih =>
    simp only [Memory.storeRun, Memory.store, Memory.fill, List.length_cons]
    by_cases ha : a < Config.memSize
    · simp only [ha, if_true, ih]
      by_cases hn : bs = [] ∨ a + 1 + bs.length ≤ Config.memSize
      · have : a + (bs.length + 1) ≤ Config.memSize := by
          rcases hn with rfl | hn
          · simpa using ha
          · omega
        simp [hn, this]
      · have : ¬ a + (bs.length + 1) ≤ Config.memSize := by omega
        simp only [hn, this, if_false, List.cons_ne_nil, false_or]
        congr 1
        omega
    · have : ¬ a + (bs.length + 1) ≤ Config.memSize := by omega
      simp only [ha, this, if_false, List.cons_ne_nil, false_or]
      congr 1
      omega

theorem Memory.fill_wf {m : Memory} {a : Nat} {bs : List Byte} (h : Memory.wf m)
    (hb : a + bs.length ≤ Config.memSize) : Memory.wf (Memory.fill m a bs) := by
  induction bs generalizing m a with
  | nil => exact h
  | cons b bs ih =>
    simp only [List.length_cons] at hb
    exact ih (Memory.put_wf b h (by omega)) (by omega)

/-- A run of writes leaves every address outside it alone. -/
theorem Memory.read_fill_other (m : Memory) {a c : Nat} {bs : List Byte} (hc : c < a ∨ a + bs.length ≤ c) :
    Memory.read (Memory.fill m a bs) c = Memory.read m c := by
  induction bs generalizing m a with
  | nil => rfl
  | cons b bs ih =>
    simp only [List.length_cons] at hc
    rw [Memory.fill, ih _ (by omega), Memory.read_put_other _ _ (by omega)]

/-- A run of writes leaves the k-th byte at its k-th address. -/
theorem Memory.read_fill {m : Memory} {a k : Nat} {bs : List Byte} (h : Memory.wf m)
    (hb : a + bs.length ≤ Config.memSize) (hk : k < bs.length) :
    Memory.read (Memory.fill m a bs) (a + k) = bs[k] := by
  induction bs generalizing m a k with
  | nil => simp at hk
  | cons b bs ih =>
    simp only [List.length_cons] at hb hk
    rw [Memory.fill]
    cases k with
    | zero => rw [Memory.read_fill_other _ (by omega)]; exact Memory.read_put_same a b h
    | succ k =>
      have := ih (m := Memory.put m a b) (a := a + 1) (k := k) (Memory.put_wf b h (by omega)) (by omega) (by omega)
      rw [← Nat.add_assoc, Nat.add_right_comm, this]
      rfl

theorem Memory.faultRun_wf {m : Memory} {draw a n : Nat} (h : Memory.wf m) :
    Memory.wf (Memory.faultRun m draw a n) := by
  induction n generalizing m a with
  | zero => exact h
  | succ n ih =>
    rw [Memory.faultRun]
    refine ih ?_
    split
    · exact Memory.put_wf _ h ‹_›
    · exact h

/-- A faulting run of writes leaves every address outside it alone, and there is none past the end. -/
theorem Memory.read_faultRun_other (m : Memory) {draw a n c : Nat} (hc : c < a ∨ a + n ≤ c ∨ Config.memSize ≤ c) :
    Memory.read (Memory.faultRun m draw a n) c = Memory.read m c := by
  induction n generalizing m a with
  | zero => rfl
  | succ n ih =>
    rw [Memory.faultRun, ih _ (by omega)]
    split
    · exact Memory.read_put_other _ _ (by omega)
    · rfl

end Sys2Proof.Machine
end

