-- ==== Sys2Proof/Laws/Ops.lean ====
section
/-! SUPPORT. What the shared operations do, said once: registers, call stack, stores at I, timers, the phases of a step. -/
namespace Sys2Proof.Machine

/-- Reading a register after writing one (R31). -/
@[simp] theorem State.getV_setV (s : State) (r q : Reg) (v : Byte) :
    (s.setV r v).getV q = if q = r then v else s.getV q := by
  simp only [State.getV, State.setV, Vector.getElem_set, Fin.ext_iff, eq_comm]

/-- The flag goes last: VF ends as the flag whatever the destination (R190). -/
@[simp] theorem State.getV_setResultFlag (s : State) (x q : Reg) (v f : Byte) :
    (s.setResultFlag x v f).getV q = if q = VF then f else if q = x then v else s.getV q := by
  simp only [State.setResultFlag, State.getV_setV]

@[simp] theorem State.getV_loadRegs (s : State) (bs : List Byte) (q : Reg) :
    (s.loadRegs bs).getV q = bs.getD q.val (s.getV q) := by
  simp [State.getV, State.loadRegs]

@[simp] theorem State.getV_faultRegs (s : State) (n : Nat) (q : Reg) :
    (s.faultRegs n).getV q = if q.val < n then Config.faultReg s.draws q.val else s.getV q := by
  simp [State.getV, State.faultRegs]

@[simp] theorem State.length_firstRegs (s : State) (n : Nat) : (s.firstRegs n).length = min n 16 := by
  simp [State.firstRegs]

theorem State.firstRegs_getElem (s : State) {n k : Nat} (h : k < (s.firstRegs n).length) (hk : k < 16) :
    (s.firstRegs n)[k] = s.getV ⟨k, hk⟩ := by
  simp [State.firstRegs, State.getV]

/-- Everything a push can answer (R39, R172). -/
theorem State.push_cases (s : State) (v : Word) :
    (s.sp.val = 16 ∧ s.push v = none) ∨
      ∃ h : s.sp.val < 16,
        s.push v = some { s with stack := s.stack.set s.sp.val v, sp := ⟨s.sp.val + 1, Nat.succ_lt_succ h⟩ } := by
  by_cases h : s.sp.val < 16
  · exact .inr ⟨h, by simp [State.push, h]⟩
  · exact .inl ⟨by omega, by simp [State.push, h]⟩

/-- Everything a pop can answer (R39, R171). -/
theorem State.pop_cases (s : State) :
    (s.sp.val = 0 ∧ s.pop = none) ∨
      ∃ (n : Nat) (h : n < 16), s.sp.val = n + 1 ∧
        s.pop = some (s.stack[n], { s with sp := ⟨n, Nat.lt_succ_of_lt h⟩ }) := by
  rcases hs : s.sp with ⟨_ | n, hn⟩
  · exact .inl ⟨rfl, by simp [State.pop, hs]⟩
  · exact .inr ⟨n, Nat.lt_of_succ_lt_succ hn, rfl, by simp [State.pop, hs]⟩

/-- Everything a store at I can do: the bytes stored and the pc advanced, or the fault with free bytes (R84, R304). -/
theorem storeAtIndex_cases (i : Instr) (bs : List Byte) (s : State) :
    ((bs = [] ∨ effAddr s 0 + bs.length ≤ Config.memSize) ∧
      storeAtIndex i bs s = .next { s with mem := Memory.fill s.mem (effAddr s 0) bs, pc := s.pc + 2 }) ∨
    (¬ (bs = [] ∨ effAddr s 0 + bs.length ≤ Config.memSize) ∧
      storeAtIndex i bs s =
        .next { s with
          mem := Memory.faultRun s.mem s.draws (effAddr s 0) bs.length
          run := .faulted ⟨.outOfBoundsAccess, some (encode i), s.pc,
            some (.memoryWrite (max (effAddr s 0) Config.memSize))⟩ }) := by
  simp only [storeAtIndex, Memory.storeRun_eq]
  by_cases h : bs = [] ∨ effAddr s 0 + bs.length ≤ Config.memSize
  · exact .inl ⟨h, by simp [h, State.advance, State.jump]⟩
  · exact .inr ⟨h, by simp only [h, if_false, State.outOfBounds, State.raise]⟩

/-- Everything a tick can do (R260). -/
theorem Timer.tick_cases (t : Timer) (now : Time) :
    t.tick now = t ∨ (t.value ≠ 0 ∧ 1 ≤ (now - t.ref) * 60 ∧ t.tick now = ⟨t.value - 1, now⟩) := by
  unfold Timer.tick
  split
  · exact .inl rfl
  · split
    · rename_i h0 h
      exact .inr ⟨h0, by simpa [Timer.due] using h, rfl⟩
    · exact .inl rfl

theorem le_laterTime_left (a b : Time) : a ≤ laterTime a b := by
  unfold laterTime
  split
  · assumption
  · exact le_refl a

/-- What the host's acts between steps leave alone: everything but the latch, the quit request and the ports (R66). -/
theorem State.hostActs_eq (s : State) :
    s.hostActs = { s with
      latch := s.hostActs.latch, quitReq := s.hostActs.quitReq, now := s.hostActs.now, rand := s.hostActs.rand
      host := s.hostActs.host, draws := s.hostActs.draws } := by
  unfold State.hostActs
  split <;> rfl

theorem State.hostActs_now_le (s : State) : s.now ≤ s.hostActs.now := by
  unfold State.hostActs
  split <;> exact le_laterTime_left _ _

@[simp] theorem State.hostActs_mem (s : State) : s.hostActs.mem = s.mem := by unfold State.hostActs; split <;> rfl
@[simp] theorem State.hostActs_V (s : State) : s.hostActs.V = s.V := by unfold State.hostActs; split <;> rfl
@[simp] theorem State.hostActs_getV (s : State) (r : Reg) : s.hostActs.getV r = s.getV r := by simp [State.getV]
@[simp] theorem State.hostActs_I (s : State) : s.hostActs.I = s.I := by unfold State.hostActs; split <;> rfl
@[simp] theorem State.hostActs_pc (s : State) : s.hostActs.pc = s.pc := by unfold State.hostActs; split <;> rfl
@[simp] theorem State.hostActs_sp (s : State) : s.hostActs.sp = s.sp := by unfold State.hostActs; split <;> rfl
@[simp] theorem State.hostActs_stack (s : State) : s.hostActs.stack = s.stack := by
  unfold State.hostActs; split <;> rfl
@[simp] theorem State.hostActs_DT (s : State) : s.hostActs.DT = s.DT := by unfold State.hostActs; split <;> rfl
@[simp] theorem State.hostActs_ST (s : State) : s.hostActs.ST = s.ST := by unfold State.hostActs; split <;> rfl
@[simp] theorem State.hostActs_fb (s : State) : s.hostActs.fb = s.fb := by unfold State.hostActs; split <;> rfl
@[simp] theorem State.hostActs_run (s : State) : s.hostActs.run = s.run := by unfold State.hostActs; split <;> rfl
@[simp] theorem State.hostActs_presentCount (s : State) : s.hostActs.presentCount = s.presentCount := by
  unfold State.hostActs; split <;> rfl

/-- A fetch answers exactly when both bytes are inside memory (R153). -/
theorem State.fetch_eq (s : State) :
    s.fetch = if s.pc.toNat + 1 < Config.memSize then
      some (wordOfBytes (Memory.read s.mem s.pc.toNat) (Memory.read s.mem (s.pc.toNat + 1))) else none := by
  unfold State.fetch Memory.load
  by_cases h1 : s.pc.toNat + 1 < Config.memSize
  · have h0 : s.pc.toNat < Config.memSize := by omega
    simp [h0, h1]
  · simp [h1]

@[simp] theorem State.tickTimers_fetch (s : State) : s.tickTimers.fetch = s.fetch := rfl

/-- Everything one step can do: stay ended, halt at the boundary, fail the fetch or the decode, or run the instruction
(R150, R305). `u` is the state after the host's acts. -/
theorem step_cases (s : State) :
    (s.run ≠ .running ∧ step s = .next s) ∨
    (s.run = .running ∧ s.hostActs.quitReq = true ∧ step s = .next (s.hostActs.halt .quit)) ∨
    (s.run = .running ∧ s.hostActs.quitReq = false ∧ Config.memSize ≤ s.pc.toNat ∧
      step s = .next (s.hostActs.halt .pcOutOfRange)) ∨
    (s.run = .running ∧ s.hostActs.quitReq = false ∧ s.pc.toNat < Config.memSize ∧ s.fetch = none ∧
      step s = .next (s.hostActs.tickTimers.raise .outOfBoundsAccess none (some .instructionFetch))) ∨
    (∃ w e, s.run = .running ∧ s.hostActs.quitReq = false ∧ s.pc.toNat < Config.memSize ∧ s.fetch = some w ∧
      decodeWord w = .error e ∧ step s = .next (s.hostActs.tickTimers.raise .invalidOpcode (some w) none)) ∨
    (∃ w i, s.run = .running ∧ s.hostActs.quitReq = false ∧ s.pc.toNat < Config.memSize ∧ s.fetch = some w ∧
      decodeWord w = .ok i ∧ step s = exec i s.hostActs.tickTimers) := by
  have hf : s.hostActs.tickTimers.fetch = s.fetch := by
    simp [State.fetch_eq]
  cases hr : s.run with
  | halted r => exact .inl ⟨by simp, by simp [step, State.request, hr]⟩
  | faulted r => exact .inl ⟨by simp, by simp [step, State.request, hr]⟩
  | running =>
    refine .inr ?_
    have hstep : step s = if s.hostActs.quitReq then .next (s.hostActs.halt .quit)
        else if Config.memSize ≤ s.pc.toNat then .next (s.hostActs.halt .pcOutOfRange)
        else s.hostActs.tickTimers.runInstr := by
      simp [step, State.request, State.cycle, hr]
    cases hq : s.hostActs.quitReq with
    | true => exact .inl ⟨rfl, rfl, by simp [hstep, hq]⟩
    | false =>
      refine .inr ?_
      by_cases hpc : Config.memSize ≤ s.pc.toNat
      · exact .inl ⟨rfl, rfl, hpc, by simp [hstep, hq, hpc]⟩
      · refine .inr ?_
        have hpc' := Nat.lt_of_not_le hpc
        have hstep' : step s = s.hostActs.tickTimers.runInstr := by simp [hstep, hq, hpc]
        cases hw : s.fetch with
        | none => exact .inl ⟨rfl, rfl, hpc', rfl, by simp [hstep', State.runInstr, hf, hw]⟩
        | some w =>
          refine .inr ?_
          cases hd : decodeWord w with
          | error e => exact .inl ⟨w, e, rfl, rfl, hpc', rfl, hd, by simp [hstep', State.runInstr, hf, hw, hd]⟩
          | ok i => exact .inr ⟨w, i, rfl, rfl, hpc', rfl, hd, by simp [hstep', State.runInstr, hf, hw, hd]⟩

end Sys2Proof.Machine
end

