-- ==== Sys2Proof/Laws/Meanings.lean ====
section
/-! SUPPORT. Everything each meaning with more than one outcome can answer, said once. -/
namespace Sys2Proof.Machine

theorem State.skipIf_eq (s : State) (c : Bool) : s.skipIf c = { s with pc := if c then s.pc + 4 else s.pc + 2 } := by
  cases c <;> rfl

@[simp] theorem State.getV_faultDraw (s : State) (x0 y0 n : Nat) (q : Reg) :
    (s.faultDraw x0 y0 n).getV q = if q = VF then Config.faultReg s.draws VF.val else s.getV q := by
  have h : (s.faultDraw x0 y0 n).V = (s.setV VF (Config.faultReg s.draws VF.val)).V := by rw [State.faultDraw]
  rw [← State.getV_setV, State.getV, State.getV, h]

/-- CALL overflows or pushes and jumps (R172). -/
theorem execCall_cases (nnn : BitVec 12) (s : State) :
    (s.sp.val = 16 ∧ execCall nnn s = .next (s.outOfBounds (.call nnn) .stackOverflow)) ∨
      ∃ h : s.sp.val < 16, execCall nnn s = .next { s with
        stack := s.stack.set s.sp.val (s.pc + 2), sp := ⟨s.sp.val + 1, Nat.succ_lt_succ h⟩, pc := addrOperand nnn } := by
  obtain ⟨h, e⟩ | ⟨h, e⟩ := s.push_cases (s.pc + 2)
  · exact .inl ⟨h, by simp only [execCall, e]⟩
  · exact .inr ⟨h, by simp only [execCall, e]; rfl⟩

/-- RET underflows or pops into pc (R171). -/
theorem execRet_cases (s : State) :
    (s.sp.val = 0 ∧ execRet s = .next (s.outOfBounds .ret .stackUnderflow)) ∨
      ∃ (n : Nat) (h : n < 16), s.sp.val = n + 1 ∧
        execRet s = .next { s with sp := ⟨n, Nat.lt_succ_of_lt h⟩, pc := s.stack[n] } := by
  obtain ⟨h, e⟩ | ⟨n, h, hs, e⟩ := s.pop_cases
  · exact .inl ⟨h, by simp only [execRet, e]⟩
  · exact .inr ⟨n, h, hs, by simp only [execRet, e]; rfl⟩

/-- ADD I overflows or adds (R221). -/
theorem execAddIVx_cases (x : Reg) (s : State) :
    (0xFFFF < indexSum s x ∧ execAddIVx x s = .next (s.outOfBounds (.addIVx x) .indexOverflow)) ∨
      (indexSum s x ≤ 0xFFFF ∧ execAddIVx x s = .next { s with I := BitVec.ofNat 16 (indexSum s x), pc := s.pc + 2 }) := by
  by_cases h : 0xFFFF < indexSum s x
  · exact .inl ⟨h, by simp only [execAddIVx, h, if_true]⟩
  · exact .inr ⟨Nat.le_of_not_lt h, by simp only [execAddIVx, h, if_false]; rfl⟩

/-- LD B stores its digits or faults past the end (R223). -/
theorem execLdBVx_cases (x : Reg) (s : State) :
    (effAddr s 2 < Config.memSize ∧ execLdBVx x s = .next { s with
      mem := Memory.fill s.mem (effAddr s 0) (bcdDigits (s.getV x)), pc := s.pc + 2 }) ∨
    (Config.memSize ≤ effAddr s 2 ∧ execLdBVx x s = .next { s with
      mem := Memory.faultRun s.mem s.draws (effAddr s 0) 3
      run := .faulted ⟨.outOfBoundsAccess, some (encode (.ldBVx x)), s.pc,
        some (.memoryWrite (max (effAddr s 0) Config.memSize))⟩ }) := by
  have hl : (bcdDigits (s.getV x)).length = 3 := rfl
  obtain ⟨h, e⟩ | ⟨h, e⟩ := storeAtIndex_cases (.ldBVx x) (bcdDigits (s.getV x)) s
  · refine .inl ⟨?_, e⟩
    have hn : bcdDigits (s.getV x) ≠ [] := List.cons_ne_nil _ _
    simp only [effAddr, hl, hn, false_or] at h ⊢
    omega
  · refine .inr ⟨?_, e⟩
    simp only [effAddr, hl, not_or] at h ⊢
    omega

/-- LD [I], Vx stores V0 to Vx or faults past the end (R224). -/
theorem execLdMemVx_cases (x : Reg) (s : State) :
    (effAddr s x.val < Config.memSize ∧ execLdMemVx x s = .next { s with
      mem := Memory.fill s.mem (effAddr s 0) (s.firstRegs (x.val + 1)), pc := s.pc + 2 }) ∨
    (Config.memSize ≤ effAddr s x.val ∧ execLdMemVx x s = .next { s with
      mem := Memory.faultRun s.mem s.draws (effAddr s 0) (x.val + 1)
      run := .faulted ⟨.outOfBoundsAccess, some (encode (.ldMemVx x)), s.pc,
        some (.memoryWrite (max (effAddr s 0) Config.memSize))⟩ }) := by
  have hx := x.isLt
  have hl : (s.firstRegs (x.val + 1)).length = x.val + 1 := by rw [State.length_firstRegs]; omega
  have hn : s.firstRegs (x.val + 1) ≠ [] := fun h => by simp [h] at hl
  obtain ⟨h, e⟩ | ⟨h, e⟩ := storeAtIndex_cases (.ldMemVx x) (s.firstRegs (x.val + 1)) s
  · refine .inl ⟨?_, e⟩
    rw [hl] at h
    simp only [effAddr] at h ⊢
    have := h.resolve_left hn
    omega
  · refine .inr ⟨?_, hl ▸ e⟩
    rw [hl] at h
    simp only [effAddr, not_or] at h ⊢
    omega

/-- LD Vx, [I] loads V0 to Vx or faults past the end (R225). -/
theorem execLdVxMem_cases (x : Reg) (s : State) :
    (effAddr s x.val < Config.memSize ∧ execLdVxMem x s =
      .next (s.loadRegs ((List.range (x.val + 1)).map fun k => Memory.read s.mem (effAddr s 0 + k))).advance) ∨
    (Config.memSize ≤ effAddr s x.val ∧ execLdVxMem x s =
      .next ((s.faultRegs (x.val + 1)).outOfBounds (.ldVxMem x) (.memoryRead (max (effAddr s 0) Config.memSize)))) := by
  by_cases h : effAddr s x.val < Config.memSize
  · have h' : effAddr s 0 + (x.val + 1) ≤ Config.memSize := by simp only [effAddr] at h ⊢; omega
    exact .inl ⟨h, by simp only [execLdVxMem, Memory.loadRun_eq, h', or_true, if_true]⟩
  · have h' : ¬ effAddr s 0 + (x.val + 1) ≤ Config.memSize := by simp only [effAddr] at h ⊢; omega
    exact .inr ⟨Nat.le_of_not_lt h, by
      simp only [execLdVxMem, Memory.loadRun_eq, h', Nat.add_one_ne_zero, or_self, if_false]⟩

/-- DRW draws the bytes at I or faults past the end (R246, R248). -/
theorem execDrw_cases (x y : Reg) (n : Fin 16) (s : State) :
    ((n.val = 0 ∨ effAddr s (n.val - 1) < Config.memSize) ∧ ∃ d : Drawing,
      d = drawSprite x y ((List.range n.val).map fun k => Memory.read s.mem (effAddr s 0 + k)) s ∧
      execDrw x y n s = .next ({ s with fb := d.1 }.setV VF (flagByte d.2)).present.advance) ∨
    (1 ≤ n.val ∧ Config.memSize ≤ effAddr s (n.val - 1) ∧ execDrw x y n s =
      .next ((s.faultDraw (originX (s.getV x)) (originY (s.getV y)) n.val).outOfBounds (.drw x y n)
        (.memoryRead (max (effAddr s 0) Config.memSize)))) := by
  by_cases h : n.val = 0 ∨ effAddr s (n.val - 1) < Config.memSize
  · have h' : n.val = 0 ∨ effAddr s 0 + n.val ≤ Config.memSize := by simp only [effAddr] at h ⊢; omega
    exact .inl ⟨h, _, rfl, by simp only [execDrw, Memory.loadRun_eq, h', if_true]⟩
  · have h' : ¬ (n.val = 0 ∨ effAddr s 0 + n.val ≤ Config.memSize) := by simp only [effAddr] at h ⊢; omega
    exact .inr ⟨by omega, by omega, by simp only [execDrw, Memory.loadRun_eq, h', if_false]⟩

/-- A key matches exactly when the last latched code is the register's value (R283, R284). -/
theorem State.keyMatches_iff (s : State) (x : Reg) :
    s.keyMatches x = true ↔ ∃ k : KeyCode, s.latch.getLast? = some k ∧ k.val = (s.getV x).toNat := by
  have key (k : KeyCode) : keyByte k = s.getV x ↔ k.val = (s.getV x).toNat := by
    have := k.isLt
    rw [← BitVec.toNat_inj, keyByte, BitVec.toNat_ofNat, Nat.mod_eq_of_lt (by omega)]
  simp only [State.keyMatches, State.lastKey, beq_iff_eq, Option.map_eq_some_iff, key]

end Sys2Proof.Machine
end

