-- ==== Sys2Proof/Laws/PerInstr.lean ====
section
/-! SUPPORT. Per instruction: the encoded word carries the bits its row of the opcode table fixes (`match` under `mask`). -/
namespace Sys2Proof

/-- Masking the low `k` bits is a remainder. -/
theorem toNat_and_low (w : Word) (k : Nat) (m : Word) (h : m.toNat = 2 ^ k - 1) : (w &&& m).toNat = w.toNat % 2 ^ k := by
  rw [BitVec.toNat_and, h, Nat.and_two_pow_sub_one_eq_mod]

/-- The top nibble in its place. -/
theorem toNat_high (w : Word) : ((w >>> 12) <<< 12).toNat = (w.toNat / 0x1000) <<< 12 := by
  have := w.isLt
  rw [BitVec.toNat_shiftLeft, BitVec.toNat_ushiftRight, Nat.shiftRight_eq_div_pow]
  simp only [Nat.shiftLeft_eq]
  omega

/-- The bits w[15:12] alone: `op`. -/
theorem and_mask_op (w : Word) : w &&& 0xF000#16 = BitVec.ofNat 16 (opField w * 0x1000) := by
  have e : w &&& 0xF000#16 = (w >>> 12) <<< 12 := by ext i hi; simp; interval_cases i <;> simp
  have := w.isLt
  apply BitVec.eq_of_toNat_eq
  rw [e, toNat_high, Nat.shiftLeft_eq, BitVec.toNat_ofNat, opField]
  omega

/-- The bits w[15:12] and w[3:0]: `op` and `n`. -/
theorem and_mask_op_n (w : Word) : w &&& 0xF00F#16 = BitVec.ofNat 16 (opField w * 0x1000 + (nField w).val) := by
  have e : w &&& 0xF00F#16 = ((w >>> 12) <<< 12) ||| (w &&& 0x000F#16) := by
    ext i hi; simp; interval_cases i <;> simp
  have := w.isLt
  apply BitVec.eq_of_toNat_eq
  rw [e, BitVec.toNat_or, toNat_high, toNat_and_low w 4 _ rfl, ← Nat.shiftLeft_add_eq_or_of_lt (by omega), Nat.shiftLeft_eq,
    BitVec.toNat_ofNat]
  simp only [opField, nField]
  omega

/-- The bits w[15:12] and w[7:0]: `op` and `kk`. -/
theorem and_mask_op_kk (w : Word) : w &&& 0xF0FF#16 = BitVec.ofNat 16 (opField w * 0x1000 + (kkField w).toNat) := by
  have e : w &&& 0xF0FF#16 = ((w >>> 12) <<< 12) ||| (w &&& 0x00FF#16) := by
    ext i hi; simp; interval_cases i <;> simp
  have := w.isLt
  apply BitVec.eq_of_toNat_eq
  rw [e, BitVec.toNat_or, toNat_high, toNat_and_low w 8 _ rfl, ← Nat.shiftLeft_add_eq_or_of_lt (by omega), Nat.shiftLeft_eq,
    BitVec.toNat_ofNat]
  simp only [opField, kkField, BitVec.toNat_ofNat]
  omega

namespace Laws.EncodeMatchesRow

/-- The word of a well-formed instruction matches its row of the opcode table. -/
def Statement (i : Instr) : Prop := i.wf = true → encode i &&& rowMask i = rowMatch i

theorem cls : Statement .cls := fun _ => by decide

theorem ret : Statement .ret := fun _ => by decide

theorem halt (nnn : BitVec 12) : Statement (.halt nnn) := fun _ => by
  rw [encode, rowMask, and_mask_op, opField_encodeNnn (op := 0x0) (by decide)]; rfl

theorem jp (nnn : BitVec 12) : Statement (.jp nnn) := fun _ => by
  rw [encode, rowMask, and_mask_op, opField_encodeNnn (op := 0x1) (by decide)]; rfl

theorem call (nnn : BitVec 12) : Statement (.call nnn) := fun _ => by
  rw [encode, rowMask, and_mask_op, opField_encodeNnn (op := 0x2) (by decide)]; rfl

theorem seVxKk (x : Reg) (kk : Byte) : Statement (.seVxKk x kk) := fun _ => by
  rw [encode, rowMask, and_mask_op, opField_encodeXkk (op := 0x3) (by decide)]; rfl

theorem sneVxKk (x : Reg) (kk : Byte) : Statement (.sneVxKk x kk) := fun _ => by
  rw [encode, rowMask, and_mask_op, opField_encodeXkk (op := 0x4) (by decide)]; rfl

theorem seVxVy (x y : Reg) : Statement (.seVxVy x y) := fun _ => by
  rw [encode, rowMask, and_mask_op_n, opField_encodeXyn (op := 0x5) (by decide) (by decide), nField_encodeXyn (op := 0x5) (by decide) (by decide)]; rfl

theorem ldVxKk (x : Reg) (kk : Byte) : Statement (.ldVxKk x kk) := fun _ => by
  rw [encode, rowMask, and_mask_op, opField_encodeXkk (op := 0x6) (by decide)]; rfl

theorem addVxKk (x : Reg) (kk : Byte) : Statement (.addVxKk x kk) := fun _ => by
  rw [encode, rowMask, and_mask_op, opField_encodeXkk (op := 0x7) (by decide)]; rfl

theorem ldVxVy (x y : Reg) : Statement (.ldVxVy x y) := fun _ => by
  rw [encode, rowMask, and_mask_op_n, opField_encodeXyn (op := 0x8) (by decide) (by decide), nField_encodeXyn (op := 0x8) (by decide) (by decide)]; rfl

theorem or (x y : Reg) : Statement (.or x y) := fun _ => by
  rw [encode, rowMask, and_mask_op_n, opField_encodeXyn (op := 0x8) (by decide) (by decide), nField_encodeXyn (op := 0x8) (by decide) (by decide)]; rfl

theorem and (x y : Reg) : Statement (.and x y) := fun _ => by
  rw [encode, rowMask, and_mask_op_n, opField_encodeXyn (op := 0x8) (by decide) (by decide), nField_encodeXyn (op := 0x8) (by decide) (by decide)]; rfl

theorem xor (x y : Reg) : Statement (.xor x y) := fun _ => by
  rw [encode, rowMask, and_mask_op_n, opField_encodeXyn (op := 0x8) (by decide) (by decide), nField_encodeXyn (op := 0x8) (by decide) (by decide)]; rfl

theorem addVxVy (x y : Reg) : Statement (.addVxVy x y) := fun _ => by
  rw [encode, rowMask, and_mask_op_n, opField_encodeXyn (op := 0x8) (by decide) (by decide), nField_encodeXyn (op := 0x8) (by decide) (by decide)]; rfl

theorem sub (x y : Reg) : Statement (.sub x y) := fun _ => by
  rw [encode, rowMask, and_mask_op_n, opField_encodeXyn (op := 0x8) (by decide) (by decide), nField_encodeXyn (op := 0x8) (by decide) (by decide)]; rfl

theorem shr (x y : Reg) : Statement (.shr x y) := fun _ => by
  rw [encode, rowMask, and_mask_op_n, opField_encodeXyn (op := 0x8) (by decide) (by decide), nField_encodeXyn (op := 0x8) (by decide) (by decide)]; rfl

theorem subn (x y : Reg) : Statement (.subn x y) := fun _ => by
  rw [encode, rowMask, and_mask_op_n, opField_encodeXyn (op := 0x8) (by decide) (by decide), nField_encodeXyn (op := 0x8) (by decide) (by decide)]; rfl

theorem shl (x y : Reg) : Statement (.shl x y) := fun _ => by
  rw [encode, rowMask, and_mask_op_n, opField_encodeXyn (op := 0x8) (by decide) (by decide), nField_encodeXyn (op := 0x8) (by decide) (by decide)]; rfl

theorem sneVxVy (x y : Reg) : Statement (.sneVxVy x y) := fun _ => by
  rw [encode, rowMask, and_mask_op_n, opField_encodeXyn (op := 0x9) (by decide) (by decide), nField_encodeXyn (op := 0x9) (by decide) (by decide)]; rfl

theorem ldI (nnn : BitVec 12) : Statement (.ldI nnn) := fun _ => by
  rw [encode, rowMask, and_mask_op, opField_encodeNnn (op := 0xA) (by decide)]; rfl

theorem jpV0 (nnn : BitVec 12) : Statement (.jpV0 nnn) := fun _ => by
  rw [encode, rowMask, and_mask_op, opField_encodeNnn (op := 0xB) (by decide)]; rfl

theorem rnd (x : Reg) (kk : Byte) : Statement (.rnd x kk) := fun _ => by
  rw [encode, rowMask, and_mask_op, opField_encodeXkk (op := 0xC) (by decide)]; rfl

theorem drw (x y : Reg) (n : Fin 16) : Statement (.drw x y n) := fun _ => by
  rw [encode, rowMask, and_mask_op, opField_encodeXyn (op := 0xD) (by decide) (Fin.isLt _)]; rfl

theorem skp (x : Reg) : Statement (.skp x) := fun _ => by
  rw [encode, rowMask, and_mask_op_kk, opField_encodeXkk (op := 0xE) (by decide), kkField_encodeXkk (op := 0xE) (by decide)]; rfl

theorem sknp (x : Reg) : Statement (.sknp x) := fun _ => by
  rw [encode, rowMask, and_mask_op_kk, opField_encodeXkk (op := 0xE) (by decide), kkField_encodeXkk (op := 0xE) (by decide)]; rfl

theorem ldVxDt (x : Reg) : Statement (.ldVxDt x) := fun _ => by
  rw [encode, rowMask, and_mask_op_kk, opField_encodeXkk (op := 0xF) (by decide), kkField_encodeXkk (op := 0xF) (by decide)]; rfl

theorem ldVxK (x : Reg) : Statement (.ldVxK x) := fun _ => by
  rw [encode, rowMask, and_mask_op_kk, opField_encodeXkk (op := 0xF) (by decide), kkField_encodeXkk (op := 0xF) (by decide)]; rfl

theorem ldDtVx (x : Reg) : Statement (.ldDtVx x) := fun _ => by
  rw [encode, rowMask, and_mask_op_kk, opField_encodeXkk (op := 0xF) (by decide), kkField_encodeXkk (op := 0xF) (by decide)]; rfl

theorem ldStVx (x : Reg) : Statement (.ldStVx x) := fun _ => by
  rw [encode, rowMask, and_mask_op_kk, opField_encodeXkk (op := 0xF) (by decide), kkField_encodeXkk (op := 0xF) (by decide)]; rfl

theorem addIVx (x : Reg) : Statement (.addIVx x) := fun _ => by
  rw [encode, rowMask, and_mask_op_kk, opField_encodeXkk (op := 0xF) (by decide), kkField_encodeXkk (op := 0xF) (by decide)]; rfl

theorem ldFVx (x : Reg) : Statement (.ldFVx x) := fun _ => by
  rw [encode, rowMask, and_mask_op_kk, opField_encodeXkk (op := 0xF) (by decide), kkField_encodeXkk (op := 0xF) (by decide)]; rfl

theorem ldBVx (x : Reg) : Statement (.ldBVx x) := fun _ => by
  rw [encode, rowMask, and_mask_op_kk, opField_encodeXkk (op := 0xF) (by decide), kkField_encodeXkk (op := 0xF) (by decide)]; rfl

theorem ldMemVx (x : Reg) : Statement (.ldMemVx x) := fun _ => by
  rw [encode, rowMask, and_mask_op_kk, opField_encodeXkk (op := 0xF) (by decide), kkField_encodeXkk (op := 0xF) (by decide)]; rfl

theorem ldVxMem (x : Reg) : Statement (.ldVxMem x) := fun _ => by
  rw [encode, rowMask, and_mask_op_kk, opField_encodeXkk (op := 0xF) (by decide), kkField_encodeXkk (op := 0xF) (by decide)]; rfl

end Laws.EncodeMatchesRow

end Sys2Proof
end

