-- ==== Sys2Proof/Tests/Slice0.lean ====
section
/-! SUPPORT. The model's own tests: what is well-formed, words written out from the encodings, one-step vectors of
95_test_vectors.md, and a witness for the hypotheses of every statement that has some. -/
namespace Sys2Proof.Tests
open Sys2Proof.Machine

/-! ## Helpers -/

/-- The result is a next state, with this property. -/
def isNext (r : Result) (p : State → Bool) : Bool :=
  match r with
  | .next s => p s
  | .fault _ | .refused _ => false

theorem exists_next {r : Result} {p : State → Bool} (h : isNext r p = true) : ∃ t, r = .next t ∧ p t = true :=
  match r, h with
  | .next s, h => ⟨s, rfl, h⟩

/-- The reset state with the next step's host entry: this key pressed, this time, this random byte. -/
def hosted (keys : List KeyCode) (quit : Bool) (now : Time) (rand : Byte) : State :=
  { State.reset with host := [⟨keys, quit, now, rand⟩] }

/-- The start state of the vectors: reset, and a host that does nothing at time 0. -/
def start : State := hosted [] false 0 0x00#8

/-- One step over the word `w` placed at pc, from the start state changed by `f`. -/
def run1 (w : Nat) (f : State → State) (p : State → Bool) : Bool := isNext (step ((f start).withFetchWord 16 w)) p

/-- Set a register. -/
def v (r : Reg) (b : Byte) (s : State) : State := s.setV r b

/-- Set I. -/
def idx (a : Word) (s : State) : State := { s with I := a }

/-- Set a byte of memory. -/
def byte (a : Nat) (b : Byte) (s : State) : State := { s with mem := Memory.put s.mem a b }

/-- The pixels of the first list, as (column, row), are on, and those of the second are off. -/
def lit (s : State) (on off : List (Fin 64 × Fin 32)) : Bool :=
  on.all (fun p => s.fb.pixel p.1 p.2) && off.all (fun p => !s.fb.pixel p.1 p.2)

/-- The run is Faulted with this record, and pc is the record's. -/
def faultedWith (k : FaultKind) (w : Option Word) (pc : Word) (c : Option FaultCause) (s : State) : Bool :=
  s.run == .faulted ⟨k, w, pc, c⟩ && s.pc == pc

/-! ## Well-formedness -/

/-- The one check of `Instr.wf`: HALT's operand is neither 0x0E0 (CLS) nor 0x0EE (RET) (R117). -/
theorem test_wf_refuses : (Instr.halt 0x0E0#12).wf = false ∧ (Instr.halt 0x0EE#12).wf = false := by decide

theorem test_wf_accepts : (Instr.halt 0x000#12).wf = true ∧ (Instr.halt 0xE0E#12).wf = true ∧ Instr.cls.wf = true := by
  decide

/-! ## Decoding: words written out from 30_encoding.md R115, field by field -/

theorem test_decode_system : decodeWord 0b0000000011100000#16 = .ok .cls ∧ decodeWord 0b0000000011101110#16 = .ok .ret ∧
    decodeWord 0b0000000100100011#16 = .ok (.halt 0x123#12) ∧ decodeWord 0b0000000011100001#16 = .ok (.halt 0x0E1#12) := by
  decide

theorem test_decode_flow : decodeWord 0b0001001010101011#16 = .ok (.jp 0x2AB#12) ∧
    decodeWord 0b0010111111111110#16 = .ok (.call 0xFFE#12) ∧ decodeWord 0b1011000100100011#16 = .ok (.jpV0 0x123#12) ∧
    decodeWord 0b0011111111111111#16 = .ok (.seVxKk 15 0xFF#8) ∧ decodeWord 0b0100000100110100#16 = .ok (.sneVxKk 1 0x34#8) ∧
    decodeWord 0b0101000000010000#16 = .ok (.seVxVy 0 1) ∧ decodeWord 0b1001101010110000#16 = .ok (.sneVxVy 10 11) := by
  decide

theorem test_decode_loads : decodeWord 0b0110101001000010#16 = .ok (.ldVxKk 10 0x42#8) ∧
    decodeWord 0b0111000111111111#16 = .ok (.addVxKk 1 0xFF#8) ∧ decodeWord 0b1010000100100011#16 = .ok (.ldI 0x123#12) ∧
    decodeWord 0b1100010000001111#16 = .ok (.rnd 4 0x0F#8) ∧ decodeWord 0b1101011110100011#16 = .ok (.drw 7 10 3) := by
  decide

theorem test_decode_alu : decodeWord 0b1000000000010000#16 = .ok (.ldVxVy 0 1) ∧
    decodeWord 0b1000000100100001#16 = .ok (.or 1 2) ∧ decodeWord 0b1000001000110010#16 = .ok (.and 2 3) ∧
    decodeWord 0b1000001101000011#16 = .ok (.xor 3 4) ∧ decodeWord 0b1000101010110100#16 = .ok (.addVxVy 10 11) ∧
    decodeWord 0b1000000100100101#16 = .ok (.sub 1 2) ∧ decodeWord 0b1000111000010110#16 = .ok (.shr 14 1) ∧
    decodeWord 0b1000000100100111#16 = .ok (.subn 1 2) ∧ decodeWord 0b1000111100001110#16 = .ok (.shl 15 0) := by
  decide

theorem test_decode_misc : decodeWord 0b1110000110011110#16 = .ok (.skp 1) ∧ decodeWord 0b1110001010100001#16 = .ok (.sknp 2) ∧
    decodeWord 0b1111000100000111#16 = .ok (.ldVxDt 1) ∧ decodeWord 0b1111000100001010#16 = .ok (.ldVxK 1) ∧
    decodeWord 0b1111001000010101#16 = .ok (.ldDtVx 2) ∧ decodeWord 0b1111000000011000#16 = .ok (.ldStVx 0) ∧
    decodeWord 0b1111000100011110#16 = .ok (.addIVx 1) ∧ decodeWord 0b1111001000101001#16 = .ok (.ldFVx 2) ∧
    decodeWord 0b1111001100110011#16 = .ok (.ldBVx 3) ∧ decodeWord 0b1111111101010101#16 = .ok (.ldMemVx 15) ∧
    decodeWord 0b1111001001100101#16 = .ok (.ldVxMem 2) := by decide

/-- T-DEC-3. -/
theorem test_decode_invalid : [0x8008#16, 0x800F#16, 0x800C#16, 0x5121#16, 0x5011#16, 0x9AB3#16, 0x901F#16, 0xE19F#16,
    0xE100#16, 0xF1FF#16, 0xF100#16, 0xF130#16].all (fun w => decide (decodeWord w = .error (.invalidOpcode w))) = true := by
  decide

/-- R110, R87: two bytes, the first one high; one byte alone is refused. -/
theorem test_decode_bytes : decode [0xD7#8, 0xA3#8, 0x12#8] = .ok (.drw 7 10 3, [0x12#8]) ∧
    decode [0xD7#8] = .error .truncated ∧ decodeTableWord 16 0xE09E = some (.skp 0) := by decide

/-! ## One step: the vectors of 95_test_vectors.md -/

/-- T-FB-10: CLS turns pixels off and does not present. -/
theorem test_cls : run1 0x00E0 (fun s => { s with fb := s.fb.plot 63 31 true })
    (fun t => lit t [] [(63, 31), (0, 0)] && t.presentCount == 0 && t.pc == 0x202#16) = true := by decide

/-- T-CF-4. -/
theorem test_ret : run1 0x00EE (fun s => { s with sp := 1, stack := s.stack.set 0 0x206#16 })
    (fun t => t.pc == 0x206#16 && t.sp == 0 && t.stack[0] == 0x206#16) = true := by decide

/-- T-CF-5. -/
theorem test_ret_empty : run1 0x00EE id
    (faultedWith .outOfBoundsAccess (some 0x00EE#16) 0x200#16 (some .stackUnderflow)) = true := by decide

/-- T-CF-12. -/
theorem test_halt : run1 0x0123 id (fun t => t.pc == 0xFFFF#16 && t.run == .halted .sentinel) = true := by decide

/-- T-CF-1: an odd target is legal. -/
theorem test_jp : run1 0x12AB id (fun t => t.pc == 0x2AB#16 && t.run == .running) = true := by decide

/-- T-CF-3. -/
theorem test_call : run1 0x2300 id (fun t => t.pc == 0x300#16 && t.sp == 1 && t.stack[0] == 0x202#16) = true := by
  decide

/-- T-CF-6. -/
theorem test_call_full : run1 0x2400 (fun s => { s with sp := 16 }) (fun t =>
    faultedWith .outOfBoundsAccess (some 0x2400#16) 0x200#16 (some .stackOverflow) t && t.sp == 16) = true := by decide

/-- T-CF-13, T-CF-14. -/
theorem test_se_byte : run1 0x3033 (v 0 0x33#8) (fun t => t.pc == 0x204#16) = true ∧
    run1 0x3034 (v 0 0x33#8) (fun t => t.pc == 0x202#16) = true := by decide

/-- T-CF-15, T-CF-16. -/
theorem test_sne_byte : run1 0x4033 (v 0 0x33#8) (fun t => t.pc == 0x202#16) = true ∧
    run1 0x4034 (v 0 0x33#8) (fun t => t.pc == 0x204#16) = true := by decide

/-- T-CF-17, T-CF-19. -/
theorem test_se_reg : run1 0x5010 (v 0 0x33#8 ∘ v 1 0x34#8) (fun t => t.pc == 0x202#16) = true ∧
    run1 0x5000 (v 0 0x33#8) (fun t => t.pc == 0x204#16) = true := by decide

/-- T-CF-18, T-CF-20. -/
theorem test_sne_reg : run1 0x9010 (v 0 0x33#8 ∘ v 1 0x34#8) (fun t => t.pc == 0x204#16) = true ∧
    run1 0x9000 (v 0 0x33#8) (fun t => t.pc == 0x202#16) = true := by decide

/-- T-CF-8: the target is not masked. -/
theorem test_jp_v0 : run1 0xBF10 (v 0 0xFF#8) (fun t => t.pc == 0x100F#16 && t.run == .running) = true := by decide

/-- T-ALU-40, T-ALU-36. -/
theorem test_ld : run1 0x6A42 id (fun t => t.getV 10 == 0x42#8) = true ∧
    run1 0x8010 (v 0 0x01#8 ∘ v 1 0x99#8) (fun t => t.getV 0 == 0x99#8 && t.getV 1 == 0x99#8) = true := by decide

/-- T-ALU-37, T-ALU-39: no carry flag. -/
theorem test_add_byte : run1 0x70FF (v 0 0x05#8 ∘ v VF 0x77#8) (fun t => t.getV 0 == 0x04#8 && t.getV VF == 0x77#8) = true ∧
    run1 0x7F01 (v VF 0xFF#8) (fun t => t.getV VF == 0x00#8) = true := by decide

/-- T-ALU-32, T-ALU-33, T-ALU-34: VF stays. -/
theorem test_logic :
    run1 0x8011 (v 0 0xF0#8 ∘ v 1 0x0F#8 ∘ v VF 0x55#8) (fun t => t.getV 0 == 0xFF#8 && t.getV VF == 0x55#8) = true ∧
    run1 0x8012 (v 0 0xF0#8 ∘ v 1 0x3C#8 ∘ v VF 0x55#8) (fun t => t.getV 0 == 0x30#8 && t.getV VF == 0x55#8) = true ∧
    run1 0x8013 (v 0 0xFF#8 ∘ v 1 0x0F#8 ∘ v VF 0x55#8) (fun t => t.getV 0 == 0xF0#8 && t.getV VF == 0x55#8) = true := by
  decide

/-- T-ALU-9: VF is read as an operand before the flag is written. -/
theorem test_add_vf_source : run1 0x81F4 (v 1 0x01#8 ∘ v VF 0xFF#8) (fun t => t.getV 1 == 0x00#8 && t.getV VF == 0x01#8) = true := by
  decide

/-- T-ALU-8: with x = F the flag stands, not the result. -/
theorem test_add_vf_dest : run1 0x8F14 (v VF 0x10#8 ∘ v 1 0x10#8) (fun t => t.getV VF == 0x00#8) = true := by decide

/-- T-ALU-12, T-ALU-11: wrap, and equal operands are not greater. -/
theorem test_sub : run1 0x8015 (v 1 0x01#8) (fun t => t.getV 0 == 0xFF#8 && t.getV VF == 0x00#8) = true ∧
    run1 0x8015 (v 0 0x05#8 ∘ v 1 0x05#8 ∘ v VF 0x01#8) (fun t => t.getV 0 == 0x00#8 && t.getV VF == 0x00#8) = true := by
  decide

/-- T-ALU-17, T-ALU-19. -/
theorem test_subn : run1 0x8017 (v 0 0x03#8 ∘ v 1 0x05#8) (fun t => t.getV 0 == 0x02#8 && t.getV VF == 0x01#8) = true ∧
    run1 0x8017 (v 0 0x01#8) (fun t => t.getV 0 == 0xFF#8 && t.getV VF == 0x00#8) = true := by decide

/-- T-ALU-24, T-ALU-25: y is ignored; the flag stands in VF. -/
theorem test_shr : run1 0x8016 (v 0 0x04#8 ∘ v 1 0xFF#8) (fun t => t.getV 0 == 0x02#8 && t.getV VF == 0x00#8) = true ∧
    run1 0x8F06 (v VF 0x03#8) (fun t => t.getV VF == 0x01#8) = true := by decide

/-- T-ALU-27, T-ALU-29. -/
theorem test_shl : run1 0x800E (v 0 0x80#8) (fun t => t.getV 0 == 0x00#8 && t.getV VF == 0x01#8) = true ∧
    run1 0x800E (v 0 0x7F#8) (fun t => t.getV 0 == 0xFE#8 && t.getV VF == 0x00#8) = true := by decide

/-- T-ALU-41. -/
theorem test_rnd : isNext (step ((hosted [] false 0 0xA7#8).withFetchWord 16 0xC40F)) (fun t => t.getV 4 == 0x07#8) = true := by
  decide

/-- T-MEM-1. -/
theorem test_ld_i : run1 0xA123 id (fun t => t.I == 0x123#16 && t.pc == 0x202#16) = true := by decide

/-- T-MEM-3, T-MEM-4. -/
theorem test_add_i : run1 0xF11E (idx 0xFF00#16 ∘ v 1 0xFF#8 ∘ v VF 0x33#8) (fun t => t.I == 0xFFFF#16 && t.getV VF == 0x33#8) = true ∧
    run1 0xF11E (idx 0xFFFF#16 ∘ v 1 0x01#8) (faultedWith .outOfBoundsAccess (some 0xF11E#16) 0x200#16 (some .indexOverflow)) = true := by
  decide

/-- T-MEM-8, T-MEM-9: no mask. -/
theorem test_ld_f : run1 0xF229 (v 2 0x10#8) (fun t => t.I == 0x050#16) = true ∧
    run1 0xF229 (v 2 0xFF#8) (fun t => t.I == 0x4FB#16) = true := by decide

/-- T-MEM-14. -/
theorem test_ld_b : run1 0xF333 (v 3 0xFE#8 ∘ idx 0x300#16) (fun t =>
    [0x300, 0x301, 0x302].map (Memory.read t.mem) == [0x02#8, 0x05#8, 0x04#8]) = true := by decide

/-- T-MEM-17: the third byte is out of bounds. -/
theorem test_ld_b_fault : run1 0xF333 (v 3 123#8 ∘ idx 0xFFE#16)
    (faultedWith .outOfBoundsAccess (some 0xF333#16) 0x200#16 (some (.memoryWrite 0x1000))) = true := by decide

/-- T-MEM-18. -/
theorem test_dump : run1 0xF055 (v 0 0xAA#8 ∘ v 1 0xBB#8 ∘ idx 0x300#16) (fun t =>
    Memory.read t.mem 0x300 == 0xAA#8 && Memory.read t.mem 0x301 == 0x00#8 && t.I == 0x300#16) = true := by decide

/-- T-MEM-20. -/
theorem test_dump_fault : run1 0xFF55 (idx 0xFF1#16)
    (faultedWith .outOfBoundsAccess (some 0xFF55#16) 0x200#16 (some (.memoryWrite 0x1000))) = true := by decide

/-- T-MEM-21: the font glyph 0. -/
theorem test_load : run1 0xF465 (v 5 0x77#8) (fun t =>
    t.V.toList.take 6 == [0xF0#8, 0x90#8, 0x90#8, 0x90#8, 0xF0#8, 0x77#8] && t.I == 0x000#16) = true := by decide

/-- T-MEM-22. -/
theorem test_load_fault : run1 0xF465 (idx 0xFFC#16)
    (faultedWith .outOfBoundsAccess (some 0xF465#16) 0x200#16 (some (.memoryRead 0x1000))) = true := by decide

/-- T-FB-2: clipped at the right edge. -/
theorem test_drw_clip : run1 0xD011 (idx 0x300#16 ∘ byte 0x300 0xFF#8 ∘ v 0 60#8) (fun t =>
    lit t [(60, 0), (61, 0), (62, 0), (63, 0)] [(59, 0), (0, 0), (3, 0), (0, 1), (60, 1)] && t.getV VF == 0x00#8 && t.presentCount == 1) = true := by decide

/-- T-FB-7 with the pixel already on: VF is a coordinate first, the collision flag after. -/
theorem test_drw_vf : run1 0xD0F1 (fun s => { (idx 0x300#16 ∘ byte 0x300 0x80#8 ∘ v 0 2#8 ∘ v VF 3#8) s with fb := s.fb.plot 2 3 true })
    (fun t => lit t [] [(2, 3)] && t.getV VF == 0x01#8) = true := by decide

/-- T-IN-4, T-IN-6. -/
theorem test_skp : run1 0xE19E (fun s => { v 1 0x03#8 s with latch := [7, 3] }) (fun t => t.pc == 0x204#16 && t.latch == []) = true ∧
    run1 0xE19E (fun s => { v 1 0x15#8 s with latch := [5] }) (fun t => t.pc == 0x202#16 && t.latch == [5]) = true := by
  decide

/-- T-IN-8, T-IN-11. -/
theorem test_sknp : run1 0xE1A1 (fun s => { v 1 0x03#8 s with latch := [3] }) (fun t => t.pc == 0x202#16 && t.latch == []) = true ∧
    run1 0xE1A1 (fun s => { v 1 0x03#8 s with latch := [3, 7] }) (fun t => t.pc == 0x204#16 && t.latch == [3, 7]) = true := by
  decide

/-- T-IN-12, T-IN-14. -/
theorem test_ld_k : run1 0xF10A (v 1 0x03#8) (fun t => t.pc == 0x200#16 && t.getV 1 == 0x03#8) = true ∧
    run1 0xF10A (fun s => { s with latch := [3, 7] }) (fun t => t.pc == 0x202#16 && t.getV 1 == 0x07#8 && t.latch == []) = true := by
  decide

/-- T-TM-8: the tick comes before the read. -/
theorem test_ld_vx_dt : isNext (step ({ hosted [] false (1 / 50) 0x00#8 with DT := ⟨0x03#8, 0⟩ }.withFetchWord 16 0xF107))
    (fun t => t.getV 1 == 0x02#8 && t.DT == ⟨0x02#8, 1 / 50⟩) = true := by decide +kernel

/-- T-TM-11: the tick comes before the set. -/
theorem test_ld_dt : isNext (step ((v 2 0x05#8 { hosted [] false (1 / 10) 0x00#8 with DT := ⟨0x01#8, 0⟩ }).withFetchWord 16 0xF215))
    (fun t => t.DT == ⟨0x05#8, 1 / 10⟩) = true := by decide +kernel

/-- T-TM-12. -/
theorem test_ld_st : run1 0xF018 (v 0 0x05#8) (fun t => t.ST == ⟨0x05#8, 0⟩ && t.soundOn) = true := by decide

/-- T-TM-1, T-TM-2, T-TM-3, T-TM-4. -/
theorem test_tick : Timer.tick ⟨0x05#8, 0⟩ (1 / 100) = ⟨0x05#8, 0⟩ ∧ Timer.tick ⟨0x05#8, 0⟩ (1 / 60) = ⟨0x04#8, 1 / 60⟩ ∧
    Timer.tick ⟨0x05#8, 0⟩ 1 = ⟨0x04#8, 1⟩ ∧ Timer.tick ⟨0x00#8, 0⟩ 10 = ⟨0x00#8, 0⟩ := by decide +kernel

/-- T-EX-1, T-EX-2: quit is seen first, without a tick. -/
theorem test_quit : isNext (step { hosted [] true 1 0x00#8 with DT := ⟨0x05#8, 0⟩, pc := 0x1000#16 })
    (fun t => t.run == .halted .quit && t.pc == 0x1000#16 && t.DT == ⟨0x05#8, 0⟩) = true := by decide

/-- T-EX-4: the fetch at 0xFFF faults after the tick. -/
theorem test_fetch_fault : isNext (step { hosted [] false 1 0x00#8 with DT := ⟨0x05#8, 0⟩, pc := 0xFFF#16 })
    (fun t => faultedWith .outOfBoundsAccess none 0xFFF#16 (some .instructionFetch) t && t.DT == ⟨0x04#8, 1⟩) = true := by
  decide +kernel

/-- T-EX-6. -/
theorem test_invalid : isNext (step ({ hosted [] false 1 0x00#8 with DT := ⟨0x05#8, 0⟩ }.withFetchWord 16 0x8008))
    (fun t => faultedWith .invalidOpcode (some 0x8008#16) 0x200#16 none t && t.DT == ⟨0x04#8, 1⟩) = true := by decide +kernel

/-- T-EX-8: an ended run stays. -/
theorem test_ended : isNext (step { start with run := .halted .sentinel })
    (fun t => t == { start with run := .halted .sentinel }) = true := by decide

/-- R68: an image lands at 0x200. -/
theorem test_boot : isNext (boot [0x22#8, 0x00#8]) (fun t => t.fetch == some 0x2200#16 && t.pc == 0x200#16) = true := by
  decide

/-! ## Witnesses: concrete states that meet the hypotheses of the statements -/

theorem witness_DecodeInvertsEncode : (Instr.halt 0x0E1#12).wf = true ∧ (Instr.drw 15 15 15).wf = true := by decide

theorem witness_EncodeInvertsDecode : decodeWord 0xFF65#16 = .ok (.ldVxMem 15) := by decide

/-- x not VF, another register, and a register that is neither: the clauses of RegisterLoads, AddImmediateNoCarry,
LogicBitwise, AddSetsCarry, SubtractSetsGreater, ShiftsByOne, RandomIsMasked and TimerTransfers. -/
theorem witness_other_registers : (14 : Reg) ≠ VF ∧ (0 : Reg) ≠ 14 ∧ (0 : Reg) ≠ VF := by decide

/-- The last push that fits, and the first that does not. -/
theorem witness_CallPushes : ({ start with sp := 15 } : State).sp.val < 16 ∧ ({ start with sp := 16 } : State).sp.val = 16 := by
  decide

theorem witness_ReturnPops : ({ start with sp := 16 } : State).sp.val = (15 : Fin 16).val + 1 ∧
    ({ start with sp := 1 } : State).sp.val = (0 : Fin 16).val + 1 ∧ start.sp.val = 0 := by decide

theorem witness_ReturnUndoesCall : ({ start with sp := 15 } : State).sp.val < 16 ∧
    ∃ t, exec (.call 0x300#12) { start with sp := 15 } = .next t ∧ decide (t.sp = 16) = true :=
  ⟨by decide, exists_next (by decide)⟩

/-- The largest sum that fits and the smallest that does not. -/
theorem witness_AddToIndex : (idx 0xFF00#16 (v 1 0xFF#8 start)).I.toNat + ((idx 0xFF00#16 (v 1 0xFF#8 start)).getV 1).toNat ≤ 0xFFFF ∧
    0xFFFF < (idx 0xFFFF#16 (v 1 0x01#8 start)).I.toNat + ((idx 0xFFFF#16 (v 1 0x01#8 start)).getV 1).toNat := by decide

/-- The last index at which the three digits fit, with an address that is none of theirs, and the first at which they do not. -/
theorem witness_BcdStored : 4096 ≤ effAddr (idx 0xFFE#16 start) 2 ∧ Memory.wf (idx 0xFFD#16 start).mem ∧ effAddr (idx 0xFFD#16 start) 2 < 4096 ∧
    0xFFC ≠ effAddr (idx 0xFFD#16 start) 0 ∧ 0xFFC ≠ effAddr (idx 0xFFD#16 start) 1 ∧ 0xFFC ≠ effAddr (idx 0xFFD#16 start) 2 := by
  decide

/-- The last index at which sixteen bytes fit, for DumpStores, LoadFills and DumpLoadRoundTrip. -/
theorem witness_DumpStores : Memory.wf (idx 0xFF0#16 start).mem ∧ effAddr (idx 0xFF0#16 start) (15 : Reg).val < 4096 ∧
    ∀ k : Reg, k ≤ 15 → 0xFEF ≠ effAddr (idx 0xFF0#16 start) k.val := by decide

theorem witness_LoadFills : effAddr (idx 0xFFB#16 start) (4 : Reg).val < 4096 ∧ (4 : Reg) < 5 := by decide

theorem witness_DumpLoadRoundTrip : Memory.wf (idx 0xFF0#16 start).mem ∧ effAddr (idx 0xFF0#16 start) (15 : Reg).val < 4096 ∧
    ∃ t, exec (.ldMemVx 15) (idx 0xFF0#16 start) = .next t ∧ decide (t.I = 0xFF0#16) = true :=
  ⟨by decide, by decide, exists_next (by decide)⟩

/-- The first index of each clause that is out of bounds, and addresses, a register and a pixel that must not change. -/
theorem witness_IndexedAccessFaults :
    4096 ≤ effAddr (idx 0xFFE#16 start) 2 ∧ 0xFFD < effAddr (idx 0xFFE#16 start) 0 ∧
    4096 ≤ effAddr (idx 0xFF1#16 start) (15 : Reg).val ∧ 0xFF0 < effAddr (idx 0xFF1#16 start) 0 ∧
    4096 ≤ effAddr (idx 0xFFC#16 start) (4 : Reg).val ∧ (4 : Reg) < 5 ∧
    1 ≤ (2 : Fin 16).val ∧ 4096 ≤ effAddr (idx 0xFFF#16 start) ((2 : Fin 16).val - 1) ∧
    inSpriteBox ((start.getV 0).toNat % 64) ((start.getV 1).toNat % 32) (2 : Fin 16).val (8 : Fin 64).val (0 : Fin 32).val = false := by
  decide

theorem witness_XorWriteToggles : start.fb.pixel 10 4 = false ∧ ((11 : Fin 64), (4 : Fin 32)) ≠ (10, 4) := by decide

/-- A sprite of the last byte of memory, of no byte at all, and one that collides or does not. -/
theorem witness_DrawXorsSprite : effAddr (idx 0xFFF#16 start) ((1 : Fin 16).val - 1) < 4096 ∧ (0 : Fin 16).val = 0 ∧
    spriteCollides { start with fb := start.fb.plot 0 0 true } 0 0 5 ∧ ¬ spriteCollides (idx 0x050#16 start) 0 0 1 :=
  ⟨by decide, rfl, ⟨0, 0, by decide⟩, by
    rintro ⟨x, y, h, -⟩
    revert h
    unfold spriteBit
    revert x y
    decide⟩

/-- Glyph 0 drawn by V0 and V1: the second draw collides. -/
theorem witness_DrawTwiceErases : effAddr start ((5 : Fin 16).val - 1) < 4096 ∧ (0 : Reg) ≠ VF ∧ (1 : Reg) ≠ VF ∧
    spriteBit start ((start.getV 0).toNat % 64) ((start.getV 1).toNat % 32) (5 : Fin 16).val 0 0 = true ∧
    start.fb.pixel 0 0 = false := by decide

/-- Exactly 1/60 s; a stopped timer; just under 1/60 s. -/
theorem witness_TickDecrementsOnce : ((⟨0x01#8, 0⟩ : Timer).value ≠ 0 ∧ (1 : Time) ≤ (1 / 60 - (⟨0x01#8, 0⟩ : Timer).ref) * 60) ∧
    (⟨0x00#8, 0⟩ : Timer).value = 0 ∧ ((1 / 61 : Time) - (⟨0x01#8, 0⟩ : Timer).ref) * 60 < 1 := by decide +kernel

/-- A state about to run `w` at the last address a word can be fetched from. -/
def atEnd (w : Nat) : State := { start with pc := 0xFFE#16, host := [⟨[7], false, 1, 0x3C#8⟩] }.withFetchWord 16 w

theorem witness_DelayReadFollowsTick : (atEnd 0xF107).run = .running ∧ (atEnd 0xF107).hostActs.quitReq = false ∧
    (atEnd 0xF107).pc.toNat + 1 < 4096 ∧
    decodeWord (wordOfBytes (Memory.read (atEnd 0xF107).mem (atEnd 0xF107).pc.toNat)
      (Memory.read (atEnd 0xF107).mem ((atEnd 0xF107).pc.toNat + 1))) = .ok (.ldVxDt 1) := by decide

/-- A step that leaves DT, one that ticks it, and one that sets it. -/
theorem witness_TimersMoveByOne :
    (∃ t, step start = .next t ∧ decide (t.DT = start.DT) = true) ∧
    (∃ t, step { atEnd 0x6005 with DT := ⟨0x02#8, 0⟩ } = .next t ∧ decide (t.DT.value = 0x01#8) = true) ∧
    ∃ t, step (v 2 0x05#8 (atEnd 0xF215)) = .next t ∧ decide (t.DT.value = 0x05#8) = true :=
  ⟨exists_next (by decide), exists_next (by decide +kernel), exists_next (by decide)⟩

/-- The last key matches; the register is past the key codes; no key is latched. For SkipOnKey and SkipOnNoKey. -/
theorem witness_SkipOnKey : keyIs (v 1 0x0F#8 { start with latch := [3, 15] }) 1 ∧
    ¬ keyIs (v 1 0x10#8 { start with latch := [0] }) 1 ∧ ¬ keyIs start 1 := by
  unfold keyIs
  decide

theorem witness_KeyWait : start.latch = [] ∧ ({ start with latch := [3, 15] } : State).latch.getLast? = some 15 := by decide

theorem witness_StepRunsDecoded : (atEnd 0x1FFE).run = .running ∧ (atEnd 0x1FFE).hostActs.quitReq = false ∧
    (atEnd 0x1FFE).pc.toNat + 1 < 4096 ∧
    decodeWord (wordOfBytes (Memory.read (atEnd 0x1FFE).mem (atEnd 0x1FFE).pc.toNat)
      (Memory.read (atEnd 0x1FFE).mem ((atEnd 0x1FFE).pc.toNat + 1))) = .ok (.jp 0xFFE#12) := by decide

/-- An ended run at a pc that cannot be fetched from, with a quit standing and another coming. -/
theorem witness_PlacedWordRunsNext :
    Memory.wf ({ hosted [] true 0 0x00#8 with pc := 0xFFF#16, run := .halted .quit, quitReq := true } : State).mem ∧
    (Instr.halt 0x0E1#12).wf = true := by decide

theorem witness_EndedRunIsFinal : ({ start with run := .halted .sentinel } : State).ended ∧
    ({ start with run := .halted .sentinel } : State).endedWell ∧
    ({ start with run := .faulted ⟨.invalidOpcode, some 0x8008#16, 0x200#16, none⟩ } : State).endedBadly :=
  ⟨nofun, ⟨_, rfl⟩, _, rfl⟩

/-- A quit standing or coming, and the lowest pc that is out of range. -/
theorem witness_BoundaryHalts : (hosted [] true 0 0x00#8).run = .running ∧ (hosted [] true 0 0x00#8).hostActs.quitReq = true ∧
    ({ start with pc := 0x1000#16 } : State).hostActs.quitReq = false ∧ 4096 ≤ ({ start with pc := 0x1000#16 } : State).pc.toNat := by
  decide

/-- No entry; an entry with keys, a quit and a later time. -/
theorem witness_HostOnlyAppends : State.reset.host = [] ∧ (hosted [3, 7] true 1 0xA7#8).host = ⟨[3, 7], true, 1, 0xA7#8⟩ :: [] ∧
    (hosted [3, 7] true 1 0xA7#8).now ≤ 1 ∧ ({ start with quitReq := true } : State).quitReq = true := by decide

theorem witness_FetchPastEndFaults : ({ start with pc := 0x0FFF#16 } : State).run = .running ∧
    ({ start with pc := 0x0FFF#16 } : State).hostActs.quitReq = false ∧ ({ start with pc := 0x0FFF#16 } : State).pc = 0x0FFF#16 := by
  decide

theorem witness_InvalidWordFaults : (atEnd 0x8008).run = .running ∧ (atEnd 0x8008).hostActs.quitReq = false ∧
    (atEnd 0x8008).pc.toNat + 1 < 4096 ∧
    0x8008#16 = wordOfBytes (Memory.read (atEnd 0x8008).mem (atEnd 0x8008).pc.toNat)
      (Memory.read (atEnd 0x8008).mem ((atEnd 0x8008).pc.toNat + 1)) ∧
    decodeWord 0x8008#16 = .error (.invalidOpcode 0x8008#16) := by decide

/-- A step that raises OutOfBoundsAccess in the instruction, one that raises it in the fetch, one that raises InvalidOpcode,
and one that raises nothing. -/
theorem witness_FaultsExactly :
    (∃ t, step { atEnd 0x2300 with sp := 16 } = .next t ∧
      faultedWith .outOfBoundsAccess (some 0x2300#16) 0xFFE#16 (some .stackOverflow) t = true) ∧
    (∃ t, step { start with pc := 0x0FFF#16 } = .next t ∧
      faultedWith .outOfBoundsAccess none 0xFFF#16 (some .instructionFetch) t = true) ∧
    (∃ t, step (atEnd 0x8008) = .next t ∧ faultedWith .invalidOpcode (some 0x8008#16) 0xFFE#16 none t = true) ∧
    ∃ t, step (atEnd 0x1FFE) = .next t ∧ decide (t.run = .running) = true :=
  ⟨exists_next (by decide), exists_next (by decide), exists_next (by decide),
    exists_next (by decide)⟩

theorem start_inv : start.Inv where
  memCanonical := by decide
  stackBound := by decide
  pcBound := by decide
  sentinelPc := by decide
  rangePc := by decide
  quitSeen := by decide
  recordPc := fun _ h => nomatch h
  delayRef := by decide
  soundRef := by decide

theorem witness_StepKeepsInvariant : start.Inv ∧ ∃ t, step start = .next t ∧ decide (t.run = .halted .sentinel) = true :=
  ⟨start_inv, exists_next (by decide)⟩

/-- Each part of the state does change, in a step of an instruction that names it. -/
theorem witness_OnlyNamedWriters :
    (∃ t, exec (.ldMemVx 0) (v 0 0xAA#8 (idx 0x300#16 start)) = .next t ∧ decide (t.mem ≠ start.mem) = true) ∧
    (∃ t, exec (.ldI 0x300#12) start = .next t ∧ decide (t.I ≠ start.I) = true) ∧
    (∃ t, exec (.call 0x300#12) start = .next t ∧ decide (t.sp ≠ start.sp ∧ t.stack ≠ start.stack) = true) ∧
    (∃ t, exec (.ldDtVx 0) (v 0 0x05#8 start) = .next t ∧ decide (t.DT.value ≠ start.DT.value) = true) ∧
    (∃ t, exec (.ldStVx 0) (v 0 0x05#8 start) = .next t ∧ decide (t.ST.value ≠ start.ST.value) = true) ∧
    (∃ t, exec (.drw 0 0 5) start = .next t ∧
      decide (t.fb.pixel 0 0 ≠ start.fb.pixel 0 0 ∧ t.presentCount ≠ start.presentCount) = true) ∧
    (∃ t, exec (.ldVxK 0) { start with latch := [3] } = .next t ∧ decide (t.latch ≠ [3]) = true) ∧
    ∃ t, exec .ret start = .next t ∧ decide (t.run ≠ start.run) = true :=
  ⟨exists_next (by decide), exists_next (by decide), exists_next (by decide), exists_next (by decide),
    exists_next (by decide), exists_next (by decide), exists_next (by decide), exists_next (by decide)⟩

/-- A register that is not named, and a flag writer that does not raise. -/
theorem witness_OnlyNamedRegistersWritten : (∃ t, exec (.sub 0 1) start = .next t ∧ decide (t.getV VF = 0x00#8) = true) ∧
    writesReg (.sub 0 1) 1 = false ∧ writesFlag (.sub 0 1) = true ∧ outOfBoundsRow (.sub 0 1) start = false :=
  ⟨exists_next (by decide), by decide⟩

/-- Registers that differ outside those ADD V0, V1 reads. -/
theorem witness_OnlyNamedRegistersRead : (∀ r : Reg, readsReg (.addVxVy 0 1) r = true →
    (start.V.set 2 0x77#8)[r.val] = start.getV r) ∧ start.V.set 2 0x77#8 ≠ start.V := by decide

/-- Latches with the same last key. -/
theorem witness_HiddenStateNotRead : ([7, 3] : List KeyCode).getLast? = ({ start with latch := [3] } : State).latch.getLast? := by
  decide

/-- A taken skip, and an instruction that raises. -/
theorem witness_PcOutcomes : (∃ t, exec (.seVxKk 0 0x00#8) start = .next t ∧ decide (t.pc = 0x204#16) = true) ∧
    outOfBoundsRow (.seVxKk 0 0x00#8) start = false ∧
    (∃ t, exec .ret start = .next t ∧ decide (t.pc = 0x200#16) = true) ∧ outOfBoundsRow .ret start = true :=
  ⟨exists_next (by decide), by decide, exists_next (by decide), by decide⟩

theorem witness_ResetState : 0x050 ≤ 0x1FF := by decide

/-- The longest image that is loaded and the shortest that is refused; the first and the last address outside an image. -/
theorem witness_BootLoadsImage : (List.replicate 3584 0x00#8).length ≤ 3584 ∧ 3584 < (List.replicate 3585 0x00#8).length ∧
    0x1FF < 0x200 ∧ 0x200 + (List.replicate 3584 0x00#8).length ≤ 0x1000 := by
  simp only [List.length_replicate]
  decide

/-- The last address of memory and the first past it. -/
theorem witness_MemoryReadsLatestWrite : Memory.wf [(0x300, 0x01#8)] ∧ 0xFFF < 4096 ∧ 4096 ≤ 0x1000 ∧ 0x300 ≠ 0xFFF := by decide

/-- Two stores in either order. -/
theorem witness_MemoryIsItsBytes : Memory.wf (Memory.put (Memory.put [] 0x300 0x01#8) 0x200 0x02#8) ∧
    Memory.put (Memory.put [] 0x300 0x01#8) 0x200 0x02#8 = Memory.put (Memory.put [] 0x200 0x02#8) 0x300 0x01#8 := by decide

end Sys2Proof.Tests
end

section
/-! What one instruction answers: that it answers, and that it either completes or raises the one fatal error of its own row of
R302, with what each leaves in `pc` and `run`. -/
namespace Sys2Proof.Machine

/-- An instruction has one answer. -/
theorem eq_of_next {r : Result} {t u : State} (h : r = .next t) (e : r = .next u) : u = t :=
  Host.Outcome.next.inj (e.symm.trans h)

/-- SKP as one state: a match empties the latch and skips (R283). -/
theorem execSkp_eq (x : Reg) (s : State) :
    execSkp x s = .next { s with
      latch := if s.keyMatches x then [] else s.latch, pc := if s.keyMatches x then s.pc + 4 else s.pc + 2 } := by
  cases h : s.keyMatches x <;> simp [execSkp, h, State.skipIf_eq, State.latchClear]

/-- SKNP as one state: a match empties the latch, no match skips (R284). -/
theorem execSknp_eq (x : Reg) (s : State) :
    execSknp x s = .next { s with
      latch := if s.keyMatches x then [] else s.latch, pc := if s.keyMatches x then s.pc + 2 else s.pc + 4 } := by
  cases h : s.keyMatches x <;> simp [execSknp, h, State.skipIf_eq, State.latchClear]

/-- LD Vx, K waits or takes the last key (R285). -/
theorem execLdVxK_cases (x : Reg) (s : State) :
    (s.lastKey = none ∧ execLdVxK x s = .next s) ∨
      ∃ k, s.lastKey = some k ∧ execLdVxK x s = .next (s.setV x (keyByte k)).latchClear.advance := by
  cases h : s.lastKey with
  | none => exact .inl ⟨rfl, by simp only [execLdVxK, h]; rfl⟩
  | some k => exact .inr ⟨k, rfl, by simp only [execLdVxK, h]⟩

/-- Every instruction answers a next state in every state (R303). -/
theorem exec_answers (i : Instr) (s : State) : ∃ t, exec i s = .next t := by
  cases i with
  | ret => obtain ⟨-, e⟩ | ⟨_, _, -, e⟩ := execRet_cases s <;> exact ⟨_, e⟩
  | call nnn => obtain ⟨-, e⟩ | ⟨_, e⟩ := execCall_cases nnn s <;> exact ⟨_, e⟩
  | drw x y n => obtain ⟨-, _, -, e⟩ | ⟨-, -, e⟩ := execDrw_cases x y n s <;> exact ⟨_, e⟩
  | skp x => exact ⟨_, execSkp_eq x s⟩
  | sknp x => exact ⟨_, execSknp_eq x s⟩
  | ldVxK x => obtain ⟨-, e⟩ | ⟨_, -, e⟩ := execLdVxK_cases x s <;> exact ⟨_, e⟩
  | addIVx x => obtain ⟨-, e⟩ | ⟨-, e⟩ := execAddIVx_cases x s <;> exact ⟨_, e⟩
  | ldBVx x => obtain ⟨-, e⟩ | ⟨-, e⟩ := execLdBVx_cases x s <;> exact ⟨_, e⟩
  | ldMemVx x => obtain ⟨-, e⟩ | ⟨-, e⟩ := execLdMemVx_cases x s <;> exact ⟨_, e⟩
  | ldVxMem x => obtain ⟨-, e⟩ | ⟨-, e⟩ := execLdVxMem_cases x s <;> exact ⟨_, e⟩
  | _ => exact ⟨_, rfl⟩

/-- Settles O49: every outcome of a step is a state of its own or the answer of an instruction. -/
theorem stepAlwaysAnswers : Obligations.StepAlwaysAnswers := by
  refine ⟨fun s => ?_, exec_answers⟩
  obtain ⟨-, e⟩ | ⟨-, -, e⟩ | ⟨-, -, -, e⟩ | ⟨-, -, -, -, e⟩ | ⟨_, _, -, -, -, -, -, e⟩ | ⟨_, i, -, -, -, -, -, e⟩ :=
    step_cases s
  pick_goal 6
  · rw [e]
    exact exec_answers i _
  all_goals exact ⟨_, e⟩

/-- `i` takes `s` to `t` without an error: `pc` is one of R160's outcomes, and only HALT ends the run. -/
def Completes (i : Instr) (s t : State) : Prop :=
  outOfBoundsRow i s = false ∧ t.pc ∈ pcOutcomes i s ∧
    ((∀ nnn, i ≠ .halt nnn) ∧ t.run = s.run ∨ (∃ nnn, i = .halt nnn) ∧ t.run = .halted .sentinel)

/-- `i` takes `s` to `t` by its own fatal error: `pc` stays and the record names the instruction (R302, R303). -/
def Raises (i : Instr) (s t : State) : Prop :=
  outOfBoundsRow i s = true ∧ t.pc = s.pc ∧
    ∃ c, t.run = .faulted ⟨.outOfBoundsAccess, some (encode i), s.pc, some c⟩

theorem raises_outOfBounds {i : Instr} {s u : State} {c : FaultCause} (hr : outOfBoundsRow i s = true)
    (hu : u.pc = s.pc) : Raises i s (u.outOfBounds i c) := ⟨hr, hu, c, by simp [hu]⟩

/-- The two ways an instruction ends; `outOfBoundsRow` tells which. -/
theorem exec_completes_or_raises {i : Instr} {s t : State} (h : exec i s = .next t) : Completes i s t ∨ Raises i s t := by
  cases i with
  | ret =>
    obtain ⟨hs, e⟩ | ⟨n, hn, hs, e⟩ := execRet_cases s <;> cases eq_of_next h e
    · exact .inr (raises_outOfBounds (by simp [outOfBoundsRow, hs]) rfl)
    · exact .inl ⟨by simp [outOfBoundsRow, hs], by simp [pcOutcomes, hs, List.getD, hn], .inl ⟨nofun, rfl⟩⟩
  | call nnn =>
    obtain ⟨hs, e⟩ | ⟨hs, e⟩ := execCall_cases nnn s <;> cases eq_of_next h e
    · exact .inr (raises_outOfBounds (by simp [outOfBoundsRow, hs]) rfl)
    · exact .inl ⟨by simp [outOfBoundsRow, hs.ne], by simp [pcOutcomes, addrOperand], .inl ⟨nofun, rfl⟩⟩
  | drw x y n =>
    obtain ⟨hs, d, -, e⟩ | ⟨hn, hs, e⟩ := execDrw_cases x y n s <;> cases eq_of_next h e
    · exact .inl ⟨by simp [outOfBoundsRow]; omega, by simp [pcOutcomes], .inl ⟨nofun, rfl⟩⟩
    · exact .inr (raises_outOfBounds (by simp [outOfBoundsRow, hn, hs]) (by simp))
  | skp x =>
    cases eq_of_next h (execSkp_eq x s)
    exact .inl ⟨rfl, by cases s.keyMatches x <;> simp [pcOutcomes], .inl ⟨nofun, rfl⟩⟩
  | sknp x =>
    cases eq_of_next h (execSknp_eq x s)
    exact .inl ⟨rfl, by cases s.keyMatches x <;> simp [pcOutcomes], .inl ⟨nofun, rfl⟩⟩
  | ldVxK x =>
    obtain ⟨-, e⟩ | ⟨_, -, e⟩ := execLdVxK_cases x s <;> cases eq_of_next h e <;>
      exact .inl ⟨rfl, by simp [pcOutcomes], .inl ⟨nofun, rfl⟩⟩
  | addIVx x =>
    obtain ⟨hs, e⟩ | ⟨hs, e⟩ := execAddIVx_cases x s <;> cases eq_of_next h e
    · exact .inr (raises_outOfBounds (by simp [outOfBoundsRow, hs]) rfl)
    · exact .inl ⟨by simp [outOfBoundsRow, hs], by simp [pcOutcomes], .inl ⟨nofun, rfl⟩⟩
  | ldBVx x =>
    obtain ⟨hs, e⟩ | ⟨hs, e⟩ := execLdBVx_cases x s <;> cases eq_of_next h e
    · exact .inl ⟨by simp [outOfBoundsRow, hs], by simp [pcOutcomes], .inl ⟨nofun, rfl⟩⟩
    · exact .inr ⟨by simp [outOfBoundsRow, hs], rfl, _, rfl⟩
  | ldMemVx x =>
    obtain ⟨hs, e⟩ | ⟨hs, e⟩ := execLdMemVx_cases x s <;> cases eq_of_next h e
    · exact .inl ⟨by simp [outOfBoundsRow, hs], by simp [pcOutcomes], .inl ⟨nofun, rfl⟩⟩
    · exact .inr ⟨by simp [outOfBoundsRow, hs], rfl, _, rfl⟩
  | ldVxMem x =>
    obtain ⟨hs, e⟩ | ⟨hs, e⟩ := execLdVxMem_cases x s <;> cases eq_of_next h e
    · exact .inl ⟨by simp [outOfBoundsRow, hs], by simp [pcOutcomes], .inl ⟨nofun, by simp⟩⟩
    · exact .inr (raises_outOfBounds (by simp [outOfBoundsRow, hs]) (by simp))
  | halt nnn => cases h; exact .inl ⟨rfl, by simp [pcOutcomes, haltPc], .inr ⟨⟨nnn, rfl⟩, rfl⟩⟩
  | jp nnn => cases h; exact .inl ⟨rfl, by simp [pcOutcomes, addrOperand], .inl ⟨nofun, rfl⟩⟩
  | jpV0 nnn => cases h; exact .inl ⟨rfl, by simp [pcOutcomes, offsetTarget], .inl ⟨nofun, rfl⟩⟩
  | seVxKk _ _ | sneVxKk _ _ | seVxVy _ _ | sneVxVy _ _ =>
    cases h
    exact .inl ⟨rfl, by rw [State.skipIf_pc]; split <;> simp [pcOutcomes], .inl ⟨nofun, by simp⟩⟩
  | _ => cases h; exact .inl ⟨rfl, by simp [pcOutcomes], .inl ⟨nofun, rfl⟩⟩

end Sys2Proof.Machine
end

section
/-! What one instruction may write: the named parts of the state, and the registers of its row of R33. -/
namespace Sys2Proof.Machine

/-- Settles O52: read off the outcomes of each arm; a raising arm is in its own row of R302. -/
theorem onlyNamedWriters : Obligations.OnlyNamedWriters := by
  intro i s t h
  cases i with
  | ret => obtain ⟨hs, e⟩ | ⟨_, _, hs, e⟩ := execRet_cases s <;> cases eq_of_next h e <;> simp [outOfBoundsRow, hs]
  | call nnn => obtain ⟨hs, e⟩ | ⟨hs, e⟩ := execCall_cases nnn s <;> cases eq_of_next h e <;> simp [outOfBoundsRow, hs]
  | drw x y n =>
    obtain ⟨-, _, -, e⟩ | ⟨hn, hs, e⟩ := execDrw_cases x y n s <;> cases eq_of_next h e
    · simp
    · simp [outOfBoundsRow, hn, hs]
  | skp x => cases eq_of_next h (execSkp_eq x s); cases s.keyMatches x <;> simp
  | sknp x => cases eq_of_next h (execSknp_eq x s); cases s.keyMatches x <;> simp
  | ldVxK x => obtain ⟨-, e⟩ | ⟨_, -, e⟩ := execLdVxK_cases x s <;> cases eq_of_next h e <;> simp
  | addIVx x => obtain ⟨hs, e⟩ | ⟨hs, e⟩ := execAddIVx_cases x s <;> cases eq_of_next h e <;> simp [outOfBoundsRow, hs]
  | ldBVx x => obtain ⟨hs, e⟩ | ⟨hs, e⟩ := execLdBVx_cases x s <;> cases eq_of_next h e <;> simp [outOfBoundsRow, hs]
  | ldMemVx x => obtain ⟨hs, e⟩ | ⟨hs, e⟩ := execLdMemVx_cases x s <;> cases eq_of_next h e <;> simp [outOfBoundsRow, hs]
  | ldVxMem x => obtain ⟨hs, e⟩ | ⟨hs, e⟩ := execLdVxMem_cases x s <;> cases eq_of_next h e <;> simp [outOfBoundsRow, hs]
  | _ => cases h; simp

/-- A register that R33 does not name as written keeps its value, in an instruction that raises too. -/
theorem exec_getV_of_not_writesReg {i : Instr} {s t : State} (h : exec i s = .next t) {r : Reg}
    (hr : writesReg i r = false) : t.getV r = s.getV r := by
  cases i with
  | ldVxKk x _ | addVxKk x _ | ldVxVy x _ | or x _ | and x _ | xor x _ | rnd x _ | ldVxDt x =>
    have hx : r ≠ x := by simpa [writesReg] using hr
    cases h
    simp [hx]
  | addVxVy x _ | sub x _ | subn x _ | shr x _ | shl x _ =>
    have hx : r ≠ x ∧ r ≠ VF := by simpa [writesReg] using hr
    cases h
    simp [hx]
  | ldVxK x =>
    have hx : r ≠ x := by simpa [writesReg] using hr
    obtain ⟨-, e⟩ | ⟨_, -, e⟩ := execLdVxK_cases x s <;> cases eq_of_next h e
    · rfl
    · simp [hx]
  | drw x y n =>
    have hx : r ≠ VF := by simpa [writesReg] using hr
    obtain ⟨-, _, -, e⟩ | ⟨-, -, e⟩ := execDrw_cases x y n s <;> cases eq_of_next h e
    · rw [State.advance_getV, State.present_getV, State.getV_setV, if_neg hx]
      rfl
    · simp [hx]
  | ldVxMem x =>
    have hx : x.val < r.val := by simpa [writesReg] using hr
    have hx' : ¬ r.val < x.val + 1 := by omega
    obtain ⟨-, e⟩ | ⟨-, e⟩ := execLdVxMem_cases x s <;> cases eq_of_next h e
    · simp [List.getD, hx']
    · simp [hx']
  | ret => obtain ⟨-, e⟩ | ⟨_, _, -, e⟩ := execRet_cases s <;> cases eq_of_next h e <;> rfl
  | call nnn => obtain ⟨-, e⟩ | ⟨_, e⟩ := execCall_cases nnn s <;> cases eq_of_next h e <;> rfl
  | skp x => cases eq_of_next h (execSkp_eq x s); rfl
  | sknp x => cases eq_of_next h (execSknp_eq x s); rfl
  | addIVx x => obtain ⟨-, e⟩ | ⟨-, e⟩ := execAddIVx_cases x s <;> cases eq_of_next h e <;> rfl
  | ldBVx x => obtain ⟨-, e⟩ | ⟨-, e⟩ := execLdBVx_cases x s <;> cases eq_of_next h e <;> rfl
  | ldMemVx x => obtain ⟨-, e⟩ | ⟨-, e⟩ := execLdMemVx_cases x s <;> cases eq_of_next h e <;> rfl
  | seVxKk _ _ | sneVxKk _ _ | seVxVy _ _ | sneVxVy _ _ => cases h; simp
  | cls | halt _ | jp _ | ldI _ | jpV0 _ | ldDtVx _ | ldStVx _ | ldFVx _ => cases h; rfl

theorem State.setResultFlag_getV_VF (s : State) (x : Reg) (v f : Byte) : (s.setResultFlag x v f).getV VF = f := by
  simp

/-- The six flag writers of R32 leave a flag in VF, whatever the destination (D17), unless they raise. -/
theorem exec_getV_VF_flag {i : Instr} {s t : State} (h : exec i s = .next t) (hi : writesFlag i = true)
    (hr : outOfBoundsRow i s = false) : ∃ b, t.getV VF = flagByte b := by
  cases i with
  | addVxVy _ _ | sub _ _ | subn _ _ | shr _ _ | shl _ _ => cases h; exact ⟨_, State.setResultFlag_getV_VF ..⟩
  | drw x y n =>
    obtain ⟨-, d, -, e⟩ | ⟨hn, hs, -⟩ := execDrw_cases x y n s
    · cases eq_of_next h e
      exact ⟨d.2, by simp⟩
    · simp [outOfBoundsRow, hn, hs] at hr
  | _ => cases hi

theorem flagByte_cases (b : Bool) : flagByte b = 0x00#8 ∨ flagByte b = 0x01#8 := by cases b <;> decide

/-- Settles O53: the frame of the registers, and the flag. -/
theorem onlyNamedRegistersWritten : Obligations.OnlyNamedRegistersWritten := fun i s t h =>
  ⟨fun _ hr => exec_getV_of_not_writesReg h hr, fun hi hr => by
    obtain ⟨b, e⟩ := exec_getV_VF_flag h hi hr
    rw [e]
    exact flagByte_cases b⟩

end Sys2Proof.Machine
end

section
/-! The invariant, first over the phases of a step (the host's acts, the tick, the ways a run ends), then over an instruction,
from what it may write and how it ends. -/
namespace Sys2Proof.Machine

theorem State.hostActs_of_nil {s : State} (h : s.host = []) : s.hostActs = { s with
    now := laterTime s.now (Config.hostNow s.draws), rand := Config.hostRand s.draws, draws := s.draws + 1 } := by
  simp only [State.hostActs, h]

theorem State.hostActs_of_cons {s : State} {e : HostInput} {rest : List HostInput} (h : s.host = e :: rest) :
    s.hostActs = { s with
      latch := s.latch ++ e.keys, quitReq := s.quitReq || e.quit, now := laterTime s.now e.now, rand := e.rand
      host := rest } := by
  simp only [State.hostActs, h]

/-- The host never clears a quit request (R63). -/
theorem State.hostActs_quitReq_of {s : State} (hq : s.quitReq = true) : s.hostActs.quitReq = true := by
  cases h : s.host with
  | nil => rw [State.hostActs_of_nil h]; exact hq
  | cons e rest => rw [State.hostActs_of_cons h]; simp [hq]

theorem State.hostActs_inv {s : State} (hi : s.Inv) : s.hostActs.Inv where
  memCanonical := by simpa using hi.memCanonical
  stackBound := by simpa using hi.stackBound
  pcBound := by simpa using hi.pcBound
  sentinelPc := by simpa using hi.sentinelPc
  rangePc := by simpa using hi.rangePc
  quitSeen h := State.hostActs_quitReq_of (hi.quitSeen (by simpa using h))
  recordPc := by simpa using hi.recordPc
  delayRef := by simpa using hi.delayRef.trans s.hostActs_now_le
  soundRef := by simpa using hi.soundRef.trans s.hostActs_now_le

theorem Timer.tick_ref_le {t : Timer} {now : Time} (h : t.ref ≤ now) : (t.tick now).ref ≤ now := by
  obtain e | ⟨-, -, e⟩ := t.tick_cases now <;> rw [e]
  exact h

theorem State.tickTimers_inv {s : State} (hi : s.Inv) : s.tickTimers.Inv :=
  { hi with delayRef := Timer.tick_ref_le hi.delayRef, soundRef := Timer.tick_ref_le hi.soundRef }

theorem State.halt_quit_inv {s : State} (hi : s.Inv) (hq : s.quitReq = true) : (s.halt .quit).Inv :=
  { hi with pcBound := nofun, sentinelPc := nofun, rangePc := nofun, quitSeen := fun _ => hq, recordPc := nofun }

theorem State.halt_pcOutOfRange_inv {s : State} (hi : s.Inv) (hpc : Config.memSize ≤ s.pc.toNat) :
    (s.halt .pcOutOfRange).Inv :=
  { hi with pcBound := nofun, sentinelPc := nofun, rangePc := fun _ => hpc, quitSeen := nofun, recordPc := nofun }

theorem State.raise_inv {s : State} (hi : s.Inv) {k : FaultKind} {w : Option Word} {c : Option FaultCause}
    (hpc : s.pc.toNat < Config.memSize) (hw : w = none ↔ s.pc = 0x0FFF#16) : (s.raise k w c).Inv :=
  { hi with
    pcBound := nofun, sentinelPc := nofun, rangePc := nofun, quitSeen := nofun
    recordPc := fun r hr => by
      obtain rfl := RunState.faulted.inj hr
      exact ⟨rfl, Nat.le_of_lt_succ hpc, hw⟩ }

/-- Inside memory only the fetch at 0xFFF fails (R153). -/
theorem State.fetch_eq_none_iff {s : State} (hpc : s.pc.toNat < Config.memSize) : s.fetch = none ↔ s.pc = 0x0FFF#16 := by
  rw [State.fetch_eq, Config.memSize] at *
  split
  · simp only [reduceCtorEq, false_iff]
    bv_omega
  · simp only [true_iff]
    bv_omega

/-- A fetch that answers has both its bytes inside memory (R153). -/
theorem State.lt_memSize_of_fetch {s : State} {w : Word} (h : s.fetch = some w) : s.pc.toNat + 1 < Config.memSize := by
  rw [State.fetch_eq] at h
  exact (Option.ite_none_right_eq_some.1 h).1

/-- Only LD B and LD [I] write memory, and both keep its form, when they raise too. -/
theorem exec_mem_wf {i : Instr} {s t : State} (h : exec i s = .next t) (hs : Memory.wf s.mem) : Memory.wf t.mem := by
  by_cases hm : t.mem = s.mem
  · exact hm ▸ hs
  · obtain ⟨hmem, -⟩ := onlyNamedWriters i s t h
    obtain ⟨x, rfl | rfl⟩ := hmem hm
    · obtain ⟨he, e⟩ | ⟨-, e⟩ := execLdBVx_cases x s <;> cases eq_of_next h e
      · exact Memory.fill_wf hs (by simp only [effAddr, bcdDigits, List.length_cons, List.length_nil] at he ⊢; omega)
      · exact Memory.faultRun_wf hs
    · obtain ⟨he, e⟩ | ⟨-, e⟩ := execLdMemVx_cases x s <;> cases eq_of_next h e
      · exact Memory.fill_wf hs (by simp only [effAddr, State.length_firstRegs] at he ⊢; omega)
      · exact Memory.faultRun_wf hs

/-- Only CALL writes the stack, and it writes a return address (R172). -/
theorem exec_stack_entry {i : Instr} {s t : State} (h : exec i s = .next t) (j : Fin 16) :
    t.stack[j.val] = s.stack[j.val] ∨ t.stack[j.val] = s.pc + 2 := by
  by_cases hm : t.stack = s.stack
  · exact .inl (by rw [hm])
  · obtain ⟨-, -, -, hstack, -⟩ := onlyNamedWriters i s t h
    obtain ⟨nnn, rfl⟩ := hstack hm
    obtain ⟨-, e⟩ | ⟨_, e⟩ := execCall_cases nnn s <;> cases eq_of_next h e
    · exact .inl rfl
    · simp only [Vector.getElem_set]
      split
      · exact .inr rfl
      · exact .inl rfl

/-- An instruction keeps DT or sets it at the present time (R265). -/
theorem exec_DT_ref {i : Instr} {s t : State} (h : exec i s = .next t) : t.DT = s.DT ∨ t.DT.ref = s.now := by
  obtain ⟨-, -, -, -, hDT, -⟩ := onlyNamedWriters i s t h
  by_cases hm : t.DT = s.DT
  · exact .inl hm
  · obtain ⟨x, rfl⟩ := hDT hm
    cases h
    exact .inr rfl

/-- An instruction keeps ST or sets it at the present time (R266). -/
theorem exec_ST_ref {i : Instr} {s t : State} (h : exec i s = .next t) : t.ST = s.ST ∨ t.ST.ref = s.now := by
  obtain ⟨-, -, -, -, -, hST, -⟩ := onlyNamedWriters i s t h
  by_cases hm : t.ST = s.ST
  · exact .inl hm
  · obtain ⟨x, rfl⟩ := hST hm
    cases h
    exact .inr rfl

theorem exec_now {i : Instr} {s t : State} (h : exec i s = .next t) : t.now = s.now := by
  obtain ⟨-, -, -, -, -, -, -, -, -, -, -, hnow, -⟩ := onlyNamedWriters i s t h
  exact hnow

/-- The bound of R37: the highest target is that of JP V0 (D14). HALT alone leaves more. -/
theorem pcOutcomes_le {i : Instr} {s : State} (hi : s.Inv) (hpc : s.pc.toNat + 1 < Config.memSize)
    (hn : ∀ nnn, i ≠ .halt nnn) {p : Word} (hp : p ∈ pcOutcomes i s) : p.toNat ≤ 0x10FE := by
  rw [Config.memSize] at hpc
  cases i with
  | halt nnn => exact absurd rfl (hn nnn)
  | ret =>
    obtain rfl := List.mem_singleton.1 hp
    have hj : s.sp.val - 1 < 16 := by omega
    have he : (s.stack[s.sp.val - 1]).toNat ≤ 0x1000 := hi.stackBound ⟨s.sp.val - 1, hj⟩
    simpa [List.getD, hj] using he.trans (by decide)
  | jp nnn | call nnn =>
    have := nnn.isLt
    obtain rfl := List.mem_singleton.1 hp
    bv_omega
  | jpV0 nnn =>
    have := nnn.isLt
    have := (s.getV 0).isLt
    obtain rfl := List.mem_singleton.1 hp
    bv_omega
  | _ =>
    simp only [pcOutcomes, List.mem_cons, List.not_mem_nil, or_false] at hp
    bv_omega

/-- The clauses of the invariant that look at neither `pc` nor `run`. -/
structure State.DataInv (s : State) : Prop where
  memCanonical : Memory.wf s.mem
  stackBound : ∀ j : Fin 16, (s.stack[j.val]).toNat ≤ 0x1000
  delayRef : s.DT.ref ≤ s.now
  soundRef : s.ST.ref ≤ s.now

theorem exec_dataInv {i : Instr} {s t : State} (hi : s.Inv) (hpc : s.pc.toNat + 1 < Config.memSize)
    (h : exec i s = .next t) : t.DataInv where
  memCanonical := exec_mem_wf h hi.memCanonical
  stackBound j := by
    rw [Config.memSize] at hpc
    obtain e | e := exec_stack_entry h j <;> rw [e]
    · exact hi.stackBound j
    · bv_omega
  delayRef := by
    rw [exec_now h]
    obtain e | e := exec_DT_ref h <;> rw [e]
    exact hi.delayRef
  soundRef := by
    rw [exec_now h]
    obtain e | e := exec_ST_ref h <;> rw [e]
    exact hi.soundRef

/-- An instruction fetched by a running core keeps the invariant, whether it completes, halts or raises. -/
theorem exec_inv {i : Instr} {s t : State} (hi : s.Inv) (hrun : s.run = .running)
    (hpc : s.pc.toNat + 1 < Config.memSize) (h : exec i s = .next t) : t.Inv := by
  have hd := exec_dataInv hi hpc h
  obtain ⟨-, hp, ⟨hn, hr⟩ | ⟨⟨nnn, rfl⟩, hr⟩⟩ | ⟨-, hp, c, hr⟩ := exec_completes_or_raises h
  · rw [hrun] at hr
    exact { hd with
      pcBound := fun _ => pcOutcomes_le hi hpc hn hp
      sentinelPc := by simp [hr], rangePc := by simp [hr], quitSeen := by simp [hr], recordPc := by simp [hr] }
  · exact { hd with
      sentinelPc := fun _ => List.mem_singleton.1 hp
      pcBound := by simp [hr], rangePc := by simp [hr], quitSeen := by simp [hr], recordPc := by simp [hr] }
  · have hlast : s.pc ≠ 0x0FFF#16 := fun e => by simp [e, Config.memSize] at hpc
    exact { hd with
      pcBound := by simp [hr], sentinelPc := by simp [hr], rangePc := by simp [hr], quitSeen := by simp [hr]
      recordPc := fun r hr' => by
        obtain rfl := RunState.faulted.inj (hr.symm.trans hr')
        exact ⟨hp.symm, Nat.le_of_lt_succ (Nat.lt_of_succ_lt hpc), by simp [hlast]⟩ }

/-- Settles O50: the host's acts and the tick keep the invariant, and so does each outcome of the step behind them. -/
theorem stepKeepsInvariant : Obligations.StepKeepsInvariant := by
  intro s t hi h
  have hu := State.hostActs_inv hi
  have hv := State.tickTimers_inv hu
  obtain ⟨-, e⟩ | ⟨-, hq, e⟩ | ⟨-, -, hpc, e⟩ | ⟨-, -, hpc, hf, e⟩ | ⟨w, -, -, -, hpc, hf, -, e⟩ |
    ⟨w, i, hr, -, -, hf, -, e⟩ := step_cases s
  · cases eq_of_next h e
    exact hi
  · cases eq_of_next h e
    exact State.halt_quit_inv hu hq
  · cases eq_of_next h e
    exact State.halt_pcOutOfRange_inv hu (by simpa using hpc)
  · cases eq_of_next h e
    exact State.raise_inv hv (by simpa using hpc) (by simpa using (State.fetch_eq_none_iff hpc).1 hf)
  · cases eq_of_next h e
    exact State.raise_inv hv (by simpa using hpc) (by simpa [hf] using State.fetch_eq_none_iff hpc)
  · exact exec_inv hv (by simpa using hr) (by simpa using State.lt_memSize_of_fetch hf) (e ▸ h)

end Sys2Proof.Machine
end

section
/-! The state after reset, booting an image, and what the host does between steps. -/
namespace Sys2Proof.Machine

/-- Settles O51: every clause is about one of the reset values. -/
theorem resetHasInvariant : Obligations.ResetHasInvariant where
  memCanonical := Memory.wf_nil
  stackBound := by decide
  pcBound _ := by decide
  sentinelPc := nofun
  rangePc := nofun
  quitSeen := nofun
  recordPc := nofun
  delayRef := le_refl _
  soundRef := le_refl _

/-- Behind the font the reset image is zero (D3). -/
theorem Memory.background_of_length_le {a : Nat} (h : fontTable.length ≤ a) : Memory.background a = 0x00#8 :=
  List.getD_eq_default _ _ h

/-- Settles O57: the reset values field by field, and the reset image behind the font. -/
theorem resetState : Obligations.ResetState :=
  ⟨rfl, by decide, rfl, rfl, by decide, rfl, rfl, fbClear_pixel, rfl, rfl, rfl, rfl, by decide,
    fun _ => Memory.background_of_length_le⟩

theorem State.Inv.withMem {s : State} (hi : s.Inv) {m : Memory} (hm : Memory.wf m) : State.Inv { s with mem := m } :=
  { hi with memCanonical := hm }

/-- Settles O58: the image is one run of writes into the empty memory, and it fits. -/
theorem bootLoadsImage : Obligations.BootLoadsImage := by
  refine fun image => ⟨fun h => ?_, fun h => if_neg (Nat.not_le_of_lt h)⟩
  have hfit : Config.programBase + image.length ≤ Config.memSize := by
    simp only [Config.programBase, Config.memSize]
    omega
  exact ⟨_, if_pos h, fun k hk => Memory.read_fill Memory.wf_nil hfit hk, fun a ha => Memory.read_fill_other [] ha, rfl,
    resetHasInvariant.withMem (Memory.fill_wf Memory.wf_nil hfit)⟩

theorem laterTime_of_le {a b : Time} (h : a ≤ b) : laterTime a b = b := if_pos h

/-- The host only appends to the latch (R63). -/
theorem State.hostActs_latch_extends (s : State) : s.latch <+: s.hostActs.latch := by
  cases h : s.host with
  | nil => rw [State.hostActs_of_nil h]
  | cons e rest => rw [State.hostActs_of_cons h]; exact ⟨e.keys, rfl⟩

/-- Settles O45: the frame, and the acts with and without an entry. -/
theorem hostOnlyAppends : Obligations.HostOnlyAppends := by
  refine fun s => ⟨s.hostActs_eq, s.hostActs_latch_extends, State.hostActs_quitReq_of, s.hostActs_now_le, fun h => ?_,
    fun e rest h => ?_⟩
  · rw [State.hostActs_of_nil h]
    exact ⟨rfl, rfl⟩
  · rw [State.hostActs_of_cons h]
    exact ⟨rfl, rfl, rfl, laterTime_of_le, rfl⟩

end Sys2Proof.Machine
end

section
/-! Two runs side by side. `Agree` has one rule per state operation; `exec_agree` runs one instruction in both states, reading
only what R33, R45 and R50 let it read. -/
namespace Sys2Proof.Machine

/-- Two runs, from `s` to `t` and from `s'` to `t'`, with equal results. What an instruction may find different at the start
and not read (a register, a timer, the latch) is equal afterwards or was kept in both; quit_req and the host's acts were
kept; present_count is only compared when it started equal. -/
structure Agree (s s' t t' : State) : Prop where
  mem : t'.mem = t.mem
  V : ∀ r, t'.getV r = t.getV r ∨ (t.getV r = s.getV r ∧ t'.getV r = s'.getV r)
  I : t'.I = t.I
  pc : t'.pc = t.pc
  sp : t'.sp = t.sp
  stack : t'.stack = t.stack
  DT : t'.DT = t.DT ∨ (t.DT = s.DT ∧ t'.DT = s'.DT)
  ST : t'.ST = t.ST ∨ (t.ST = s.ST ∧ t'.ST = s'.ST)
  fb : t'.fb = t.fb
  latch : t'.latch = t.latch ∨ (t.latch = s.latch ∧ t'.latch = s'.latch)
  quitReq : t.quitReq = s.quitReq ∧ t'.quitReq = s'.quitReq
  run : t'.run = t.run
  presentCount : s'.presentCount = s.presentCount → t'.presentCount = t.presentCount
  now : t'.now = t.now
  rand : t'.rand = t.rand
  host : t.host = s.host ∧ t'.host = s'.host
  draws : t'.draws = t.draws

/-- Both runs answer, and the answers agree. -/
def AgreeNext (s s' : State) (r r' : Result) : Prop := ∃ t t', r = .next t ∧ r' = .next t' ∧ Agree s s' t t'

theorem State.faultDraw_eq (s : State) (x0 y0 n : Nat) :
    s.faultDraw x0 y0 n = { s.setV VF (Config.faultReg s.draws VF.val) with
      fb := (s.faultDraw x0 y0 n).fb, presentCount := Config.faultPresent s.draws } := by
  simp only [State.faultDraw, State.setV]

theorem State.firstRegs_congr {s s' : State} {n : Nat} (hV : ∀ r : Reg, r.val < n → s'.getV r = s.getV r) :
    s'.firstRegs n = s.firstRegs n := by
  refine List.ext_getElem (by simp) fun k h' h => ?_
  have hk : k < n ∧ k < 16 := by simpa using h
  rw [State.firstRegs_getElem s' h' hk.2, State.firstRegs_getElem s h hk.2, hV ⟨k, hk.2⟩ hk.1]

section
variable {s s' t t' : State}

theorem Agree.setV (a : Agree s s' t t') (x : Reg) (v : Byte) : Agree s s' (t.setV x v) (t'.setV x v) :=
  { a with
    V := fun r => by
      simp only [State.getV_setV]
      split
      · exact .inl rfl
      · exact a.V r }

theorem Agree.setResultFlag (a : Agree s s' t t') (x : Reg) (v f : Byte) :
    Agree s s' (t.setResultFlag x v f) (t'.setResultFlag x v f) := (a.setV x v).setV VF f

theorem Agree.jump (a : Agree s s' t t') (p : Word) : Agree s s' (t.jump p) (t'.jump p) := { a with pc := rfl }

theorem Agree.advance (a : Agree s s' t t') : Agree s s' t.advance t'.advance := by
  rw [State.advance, State.advance, a.pc]
  exact a.jump _

theorem Agree.skipIf (a : Agree s s' t t') (c : Bool) : Agree s s' (t.skipIf c) (t'.skipIf c) := by
  cases c with
  | false => exact a.advance
  | true =>
    rw [State.skipIf, State.skipIf, a.pc]
    exact a.jump _

theorem Agree.halt (a : Agree s s' t t') (reason : HaltReason) : Agree s s' (t.halt reason) (t'.halt reason) :=
  { a with run := rfl }

theorem Agree.outOfBounds (a : Agree s s' t t') (i : Instr) (c : FaultCause) :
    Agree s s' (t.outOfBounds i c) (t'.outOfBounds i c) :=
  { a with run := by rw [State.outOfBounds_run, State.outOfBounds_run, a.pc] }

theorem Agree.latchClear (a : Agree s s' t t') : Agree s s' t.latchClear t'.latchClear := { a with latch := .inl rfl }

theorem Agree.present (a : Agree s s' t t') : Agree s s' t.present t'.present :=
  { a with presentCount := fun h => congrArg (· + 1) (a.presentCount h) }

theorem Agree.withMem (a : Agree s s' t t') {m m' : Memory} (h : m' = m) :
    Agree s s' { t with mem := m } { t' with mem := m' } :=
  { a with mem := h }

theorem Agree.withI (a : Agree s s' t t') {w w' : Word} (h : w' = w) : Agree s s' { t with I := w } { t' with I := w' } :=
  { a with I := h }

theorem Agree.withFb (a : Agree s s' t t') {fb fb' : Framebuffer} (h : fb' = fb) :
    Agree s s' { t with fb := fb } { t' with fb := fb' } :=
  { a with fb := h }

theorem Agree.withDT (a : Agree s s' t t') {d d' : Timer} (h : d' = d) :
    Agree s s' { t with DT := d } { t' with DT := d' } :=
  { a with DT := .inl h }

theorem Agree.withST (a : Agree s s' t t') {d d' : Timer} (h : d' = d) :
    Agree s s' { t with ST := d } { t' with ST := d' } :=
  { a with ST := .inl h }

theorem Agree.withV (a : Agree s s' t t') {W W' : Vector Byte 16}
    (h : ∀ r : Reg, W'[r.val] = W[r.val] ∨ (W[r.val] = s.getV r ∧ W'[r.val] = s'.getV r)) :
    Agree s s' { t with V := W } { t' with V := W' } :=
  { a with V := h }

theorem Agree.loadRegs (a : Agree s s' t t') (bs : List Byte) : Agree s s' (t.loadRegs bs) (t'.loadRegs bs) := by
  unfold State.loadRegs
  refine a.withV fun r => ?_
  simp only [Vector.getElem_ofFn]
  by_cases h : r.val < bs.length
  · exact .inl (by simp [List.getD, h])
  · simpa [List.getD, h, State.getV] using a.V r

theorem Agree.faultRegs (a : Agree s s' t t') (n : Nat) : Agree s s' (t.faultRegs n) (t'.faultRegs n) := by
  unfold State.faultRegs
  refine a.withV fun r => ?_
  simp only [Vector.getElem_ofFn, a.draws]
  split
  · exact .inl rfl
  · exact a.V r

theorem Agree.faultDraw (a : Agree s s' t t') (x0 y0 n : Nat) :
    Agree s s' (t.faultDraw x0 y0 n) (t'.faultDraw x0 y0 n) := by
  have hfb : (t'.faultDraw x0 y0 n).fb = (t.faultDraw x0 y0 n).fb :=
    Framebuffer.ext_pixel fun x y => by simp only [State.faultDraw_pixel, a.draws, a.fb]
  rw [State.faultDraw_eq t, State.faultDraw_eq t', hfb, a.draws]
  generalize (t.faultDraw x0 y0 n).fb = fb
  exact { a.setV VF (Config.faultReg t.draws VF.val) with fb := rfl, presentCount := fun _ => rfl }

theorem Agree.effAddr (a : Agree s s' t t') (k : Nat) : effAddr t' k = effAddr t k := by
  simp only [Machine.effAddr, a.I]

theorem Agree.next (a : Agree s s' t t') : AgreeNext s s' (.next t) (.next t') := ⟨t, t', rfl, rfl, a⟩

theorem AgreeNext.ite {p p' : Prop} [Decidable p] [Decidable p'] {r₁ r₂ r₁' r₂' : Result} (h : p' ↔ p)
    (h₁ : AgreeNext s s' r₁ r₁') (h₂ : AgreeNext s s' r₂ r₂') :
    AgreeNext s s' (if p then r₁ else r₂) (if p' then r₁' else r₂') := by
  by_cases hp : p
  · rwa [if_pos hp, if_pos (h.2 hp)]
  · rwa [if_neg hp, if_neg (mt h.1 hp)]

theorem Agree.storeAtIndex (a : Agree s s' s s') (i : Instr) (bs : List Byte) :
    AgreeNext s s' (storeAtIndex i bs s) (storeAtIndex i bs s') := by
  have hr : s'.mem.storeRun (Machine.effAddr s' 0) bs = s.mem.storeRun (Machine.effAddr s 0) bs := by
    rw [a.mem, a.effAddr]
  simp only [Machine.storeAtIndex, hr]
  cases s.mem.storeRun (Machine.effAddr s 0) bs with
  | ok m => exact (a.withMem rfl).advance.next
  | error e => exact ((a.withMem (by rw [a.mem, a.draws, a.effAddr])).outOfBounds i _).next

/-- One instruction in two states that agree, with the same registers of its row of R33, the same last key and the same DT:
both answer, and the answers agree. -/
theorem exec_agree {i : Instr} (a : Agree s s' s s') (hV : ∀ r, readsReg i r = true → s'.getV r = s.getV r)
    (hk : s'.lastKey = s.lastKey) (hd : s'.DT.value = s.DT.value) : AgreeNext s s' (exec i s) (exec i s') := by
  cases i with
  | cls => exact (a.withFb rfl).advance.next
  | halt nnn => exact ((a.jump _).halt _).next
  | jp nnn => exact (a.jump _).next
  | jpV0 nnn =>
    simp only [exec, execJpV0, hV 0 rfl]
    exact (a.jump _).next
  | ret =>
    obtain ⟨hs, e⟩ | ⟨n, hn, hs, e⟩ := execRet_cases s <;> obtain ⟨hs', e'⟩ | ⟨n', hn', hs', e'⟩ := execRet_cases s' <;>
      rw [a.sp] at hs'
    · exact ⟨_, _, e, e', a.outOfBounds _ _⟩
    · omega
    · omega
    · obtain rfl : n' = n := by omega
      exact ⟨_, _, e, e', { a with sp := rfl, pc := by simp only [a.stack] }⟩
  | call nnn =>
    obtain ⟨hs, e⟩ | ⟨hs, e⟩ := execCall_cases nnn s <;> obtain ⟨hs', e'⟩ | ⟨hs', e'⟩ := execCall_cases nnn s' <;>
      rw [a.sp] at hs'
    · exact ⟨_, _, e, e', a.outOfBounds _ _⟩
    · omega
    · omega
    · exact ⟨_, _, e, e',
        { a with sp := by simp only [a.sp], stack := by simp only [a.sp, a.stack, a.pc], pc := rfl }⟩
  | seVxKk x kk | sneVxKk x kk =>
    simp only [exec, execSeVxKk, execSneVxKk, hV x (by simp [readsReg])]
    exact (a.skipIf _).next
  | seVxVy x y | sneVxVy x y =>
    simp only [exec, execSeVxVy, execSneVxVy, hV x (by simp [readsReg]), hV y (by simp [readsReg])]
    exact (a.skipIf _).next
  | ldVxKk x kk => exact (a.setV x kk).advance.next
  | addVxKk x kk =>
    simp only [exec, execAddVxKk, hV x (by simp [readsReg])]
    exact (a.setV x _).advance.next
  | ldVxVy x y =>
    simp only [exec, execLdVxVy, hV y (by simp [readsReg])]
    exact (a.setV x _).advance.next
  | or x y | and x y | xor x y =>
    simp only [exec, execOr, execAnd, execXor, hV x (by simp [readsReg]), hV y (by simp [readsReg])]
    exact (a.setV x _).advance.next
  | addVxVy x y | sub x y | subn x y =>
    simp only [exec, execAddVxVy, execSub, execSubn, hV x (by simp [readsReg]), hV y (by simp [readsReg])]
    exact (a.setResultFlag x _ _).advance.next
  | shr x y | shl x y =>
    simp only [exec, execShr, execShl, hV x (by simp [readsReg])]
    exact (a.setResultFlag x _ _).advance.next
  | rnd x kk =>
    simp only [exec, execRnd, a.rand]
    exact (a.setV x _).advance.next
  | drw x y n =>
    have hx := hV x (by simp [readsReg])
    have hy := hV y (by simp [readsReg])
    have hr : s'.mem.loadRun (effAddr s' 0) n.val = s.mem.loadRun (effAddr s 0) n.val := by rw [a.mem, a.effAddr]
    have hd (bs : List Byte) : drawSprite x y bs s' = drawSprite x y bs s := by simp only [drawSprite, a.fb, hx, hy]
    simp only [exec, execDrw, hr, hd, hx, hy]
    cases s.mem.loadRun (effAddr s 0) n.val with
    | ok bs => exact ((a.withFb rfl).setV VF _).present.advance.next
    | error e => exact ((a.faultDraw (originX (s.getV x)) (originY (s.getV y)) n.val).outOfBounds _ _).next
  | skp x | sknp x =>
    have hm : s'.keyMatches x = s.keyMatches x := by simp only [State.keyMatches, hk, hV x (by simp [readsReg])]
    exact .ite (by rw [hm]) (a.latchClear.skipIf _).next (a.skipIf _).next
  | ldVxDt x =>
    simp only [exec, execLdVxDt, Timer.get, hd]
    exact (a.setV x _).advance.next
  | ldVxK x =>
    simp only [exec, execLdVxK, hk]
    cases s.lastKey with
    | none => exact a.next
    | some k => exact (a.setV x _).latchClear.advance.next
  | ldDtVx x => exact (a.withDT (by rw [a.now, hV x (by simp [readsReg])])).advance.next
  | ldStVx x => exact (a.withST (by rw [a.now, hV x (by simp [readsReg])])).advance.next
  | ldI nnn => exact (a.withI rfl).advance.next
  | addIVx x =>
    have hs : indexSum s' x = indexSum s x := by simp only [indexSum, a.I, hV x (by simp [readsReg])]
    exact .ite (by rw [hs]) (a.outOfBounds _ _).next (a.withI (by rw [hs])).advance.next
  | ldFVx x => exact (a.withI (by rw [hV x (by simp [readsReg])])).advance.next
  | ldBVx x =>
    simp only [exec, execLdBVx, hV x (by simp [readsReg])]
    exact a.storeAtIndex _ _
  | ldMemVx x =>
    simp only [exec, execLdMemVx, State.firstRegs_congr fun r hr => hV r (decide_eq_true (Nat.le_of_lt_succ hr))]
    exact a.storeAtIndex _ _
  | ldVxMem x =>
    simp only [exec, execLdVxMem, a.mem, a.effAddr]
    cases s.mem.loadRun (effAddr s 0) (x.val + 1) with
    | ok bs => exact (a.loadRegs bs).advance.next
    | error e => exact ((a.faultRegs _).outOfBounds _ _).next

end

/-- A state and the same with other registers agree at the start. -/
theorem agree_otherRegs (s : State) (V' : Vector Byte 16) : Agree s { s with V := V' } s { s with V := V' } :=
  { mem := rfl, V := fun _ => .inr ⟨rfl, rfl⟩, I := rfl, pc := rfl, sp := rfl, stack := rfl, DT := .inl rfl, ST := .inl rfl
    fb := rfl, latch := .inl rfl, quitReq := ⟨rfl, rfl⟩, run := rfl, presentCount := id, now := rfl, rand := rfl
    host := ⟨rfl, rfl⟩, draws := rfl }

/-- What `HiddenStateNotRead` lets differ: latch, quit_req, present_count, the host's acts and the timer references. -/
def State.withHidden (s : State) (l : List KeyCode) (q : Bool) (n : Nat) (h : List HostInput) (a b : Time) : State :=
  { s with latch := l, quitReq := q, presentCount := n, host := h, DT := ⟨s.DT.value, a⟩, ST := ⟨s.ST.value, b⟩ }

/-- A state and the same with another hidden part agree at the start. -/
theorem agree_withHidden (s : State) (l : List KeyCode) (q : Bool) (n : Nat) (h : List HostInput) (a b : Time) :
    Agree s (s.withHidden l q n h a b) s (s.withHidden l q n h a b) :=
  { mem := rfl, V := fun _ => .inl rfl, I := rfl, pc := rfl, sp := rfl, stack := rfl, DT := .inr ⟨rfl, rfl⟩
    ST := .inr ⟨rfl, rfl⟩, fb := rfl, latch := .inr ⟨rfl, rfl⟩, quitReq := ⟨rfl, rfl⟩, run := rfl, presentCount := id
    now := rfl, rand := rfl, host := ⟨rfl, rfl⟩, draws := rfl }

/-- What `f` sees is equal at the end, whether the field was written alike or kept, if `f` saw the same at the start. -/
theorem apply_eq_of_eq_or_kept {α β : Type} (f : α → β) {x x' y y' : α} (h : x' = x ∨ (x = y ∧ x' = y'))
    (hf : f y' = f y) : f x' = f x := by
  obtain rfl | ⟨rfl, rfl⟩ := h
  · rfl
  · exact hf

theorem eq_of_eq_or_kept {α : Type} {x x' y y' : α} (h : x' = x ∨ (x = y ∧ x' = y')) (hy : y' = y) : x' = x :=
  apply_eq_of_eq_or_kept id h hy

/-- Settles O54: the runs agree, and everything but V started equal. -/
theorem onlyNamedRegistersRead : Obligations.OnlyNamedRegistersRead := by
  intro i s V' hV
  obtain ⟨t, t', e, e', b⟩ := exec_agree (agree_otherRegs s V') hV rfl rfl
  have hq : t'.quitReq = t.quitReq := b.quitReq.2.trans b.quitReq.1.symm
  have hh : t'.host = t.host := b.host.2.trans b.host.1.symm
  refine ⟨t, t', e, e', ?_, b.V⟩
  rw [← b.mem, ← b.I, ← b.pc, ← b.sp, ← b.stack, ← eq_of_eq_or_kept b.DT rfl, ← eq_of_eq_or_kept b.ST rfl, ← b.fb,
    ← eq_of_eq_or_kept b.latch rfl, ← hq, ← b.run, ← b.presentCount rfl, ← b.now, ← b.rand, ← hh, ← b.draws]

/-- Settles O55: the runs agree, all registers started equal, and so did the last key and the timer values. -/
theorem hiddenStateNotRead : Obligations.HiddenStateNotRead := by
  intro i s l q n h a b hl
  obtain ⟨t, t', e, e', d⟩ := exec_agree (agree_withHidden s l q n h a b) (fun _ _ => rfl) hl rfl
  have hV : t'.V = t.V := Vector.ext fun k hk => eq_of_eq_or_kept (d.V ⟨k, hk⟩) rfl
  have hq : t'.quitReq = q := d.quitReq.2
  have hh : t'.host = h := d.host.2
  refine ⟨t, t', e, e', ?_, apply_eq_of_eq_or_kept List.getLast? d.latch hl, apply_eq_of_eq_or_kept Timer.value d.DT rfl,
    apply_eq_of_eq_or_kept Timer.value d.ST rfl⟩
  rw [← d.mem, ← hV, ← d.I, ← d.pc, ← d.sp, ← d.stack, ← d.fb, ← d.run, ← d.now, ← d.rand, ← d.draws, ← hq, ← hh]

end Sys2Proof.Machine
end

section
/-! Memory as an array of bytes (20_memory.md R80, R83, R84, R91): where the bounded accesses answer, a read after a write, and
the canonical form as the only list of its bytes. -/
namespace Sys2Proof.Machine

theorem Memory.load_eq_none {m : Memory} {a : Nat} : Memory.load m a = none ↔ Config.memSize ≤ a := by
  simp [Memory.load]

theorem Memory.store_eq_none {m : Memory} {a : Nat} {v : Byte} :
    Memory.store m a v = none ↔ Config.memSize ≤ a := by
  simp [Memory.store]

/-- A bounded read of another address than the one written answers as before, past the end too. -/
theorem Memory.load_put_other (m : Memory) {a b : Nat} (v : Byte) (hb : b ≠ a) :
    Memory.load (Memory.put m a v) b = Memory.load m b := by
  simp only [Memory.load, Memory.read_put_other m v hb]

/-- Settles O59: `put` keeps the form, reads back what it wrote and leaves the other addresses; `load` and `store` bound it. -/
theorem memoryReadsLatestWrite : Obligations.MemoryReadsLatestWrite := by
  intro m a v hm
  constructor
  · intro (ha : Config.memSize ≤ a)
    exact ⟨Memory.load_eq_none.2 ha, Memory.store_eq_none.2 ha⟩
  · intro (ha : a < Config.memSize)
    exact ⟨Memory.put m a v, Memory.store_eq_some.2 ⟨ha, rfl⟩, Memory.put_wf v hm ha,
      Memory.load_eq_some.2 ⟨ha, (Memory.read_put_same a v hm).symm⟩, fun _ hb => Memory.load_put_other m v hb⟩

theorem Memory.read_head (b : Nat) (w : Byte) (m : Memory) : Memory.read ((b, w) :: m) b = w := if_pos rfl

/-- The first cell of a canonical memory is at the lowest address that differs from the background. -/
theorem Memory.head_le_of_read_ne {m : Memory} {a b : Nat} {w : Byte} (h : Memory.wf ((b, w) :: m))
    (ha : Memory.read ((b, w) :: m) a ≠ Memory.background a) : b ≤ a := by
  obtain ⟨hlt, -⟩ := Memory.wf_cons.1 h
  by_contra hba
  have hab : a < b := Nat.lt_of_not_le hba
  exact ha (Memory.read_of_lt_all (List.forall_mem_cons.2 ⟨hab, fun c hc => hab.trans (hlt c hc)⟩))

/-- Without its first cell, a canonical memory reads as the background there and as before elsewhere. -/
theorem Memory.read_tail {m : Memory} {b : Nat} {w : Byte} (h : Memory.wf ((b, w) :: m)) (a : Nat) :
    Memory.read m a = if a = b then Memory.background b else Memory.read ((b, w) :: m) a := by
  obtain ⟨hlt, -⟩ := Memory.wf_cons.1 h
  split
  · next hab =>
    rw [hab]
    exact Memory.read_of_lt_all hlt
  · next hab => exact (if_neg hab).symm

/-- At its first cell a canonical memory differs from the background. -/
theorem Memory.read_head_ne {m : Memory} {b : Nat} {w : Byte} (h : Memory.wf ((b, w) :: m)) :
    Memory.read ((b, w) :: m) b ≠ Memory.background b := by
  obtain ⟨-, -, hw, -⟩ := Memory.wf_cons.1 h
  rwa [Memory.read_head]

/-- Settles O60, by induction on both lists: the bytes fix the first cell, and with it what the rest reads as. -/
theorem memoryIsItsBytes : Obligations.MemoryIsItsBytes := by
  intro m m' h h' hr
  induction m generalizing m' with
  | nil =>
    cases m' with
    | nil => rfl
    | cons c' m' => exact absurd (hr c'.1).symm (Memory.read_head_ne h')
  | cons c m ih =>
    cases m' with
    | nil => exact absurd (hr c.1) (Memory.read_head_ne h)
    | cons c' m' =>
      obtain ⟨b, w⟩ := c
      obtain ⟨b', w'⟩ := c'
      obtain ⟨-, -, -, hm⟩ := Memory.wf_cons.1 h
      obtain ⟨-, -, -, hm'⟩ := Memory.wf_cons.1 h'
      obtain rfl : b = b' := Nat.le_antisymm
        (Memory.head_le_of_read_ne h (hr b' ▸ Memory.read_head_ne h'))
        (Memory.head_le_of_read_ne h' (hr b ▸ Memory.read_head_ne h))
      obtain rfl : w = w' := by simpa only [Memory.read_head] using hr b
      have htail : m = m' := ih m' hm hm' fun a => by rw [Memory.read_tail h, Memory.read_tail h', hr]
      rw [htail]

end Sys2Proof.Machine
end

section
/-! The opcode map read both ways (30_encoding.md R113, R115, R116, R119, R121): the decoder gives back what the encoder wrote,
and the encoder what the decoder read. -/
namespace Sys2Proof

/-- The word of an `op` and `nnn` differs from every word with another `nnn`. -/
theorem encodeNnn_ne {op : Nat} {nnn : BitVec 12} {w : Word} (hop : op < 16) (h : nnn ≠ nnnField w) :
    encodeNnn op nnn ≠ w := by
  rintro rfl
  exact h (nnnField_encodeNnn hop nnn).symm

/-- The operand of a well-formed HALT is that of neither CLS nor RET (R117). -/
theorem halt_wf_iff {nnn : BitVec 12} : (Instr.halt nnn).wf = true ↔ nnn ≠ 0x0E0#12 ∧ nnn ≠ 0x0EE#12 := by
  simp [Instr.wf]

/-- The word of a well-formed instruction decodes to it, one case per format of R114: the decoder reads back each field that the
encoder wrote, and HALT's word is not that of CLS or RET. -/
theorem decodeWord_encode {i : Instr} (h : i.wf = true) : decodeWord (encode i) = .ok i := by
  cases i with
  | cls | ret => rfl
  | halt nnn =>
    obtain ⟨hcls, hret⟩ := halt_wf_iff.1 h
    have ncls : encodeNnn 0x0 nnn ≠ 0x00E0#16 := encodeNnn_ne (by decide) hcls
    have nret : encodeNnn 0x0 nnn ≠ 0x00EE#16 := encodeNnn_ne (by decide) hret
    simp (disch := decide) only [encode, decodeWord, opField_encodeNnn, nnnField_encodeNnn, ncls, nret, if_false]
  | jp nnn | call nnn | ldI nnn | jpV0 nnn =>
    simp (disch := decide) only [encode, decodeWord, opField_encodeNnn, nnnField_encodeNnn]
  | seVxKk x kk | sneVxKk x kk | ldVxKk x kk | addVxKk x kk | rnd x kk =>
    simp (disch := decide) only [encode, decodeWord, opField_encodeXkk, xField_encodeXkk, kkField_encodeXkk]
  | seVxVy x y | sneVxVy x y =>
    simp (disch := decide) only [encode, decodeWord, opField_encodeXyn, xField_encodeXyn, yField_encodeXyn,
      nField_encodeXyn, if_true]
  | ldVxVy x y | or x y | and x y | xor x y | addVxVy x y | sub x y | shr x y | subn x y | shl x y =>
    simp (disch := decide) only [encode, decodeWord, decodeAlu, opField_encodeXyn, xField_encodeXyn, yField_encodeXyn,
      nField_encodeXyn]
  | drw x y n =>
    have hop : (0xD : Nat) < 16 := by decide
    have hn : nField (encodeXyn 0xD x y n.val) = n := Fin.ext (nField_encodeXyn hop n.isLt x y)
    simp only [encode, decodeWord, opField_encodeXyn hop n.isLt, xField_encodeXyn hop n.isLt, yField_encodeXyn hop n.isLt, hn]
  | skp x | sknp x =>
    simp (disch := decide) only [encode, decodeWord, decodeKey, opField_encodeXkk, xField_encodeXkk, kkField_encodeXkk,
      BitVec.toNat_ofNat, Nat.reducePow, Nat.reduceMod]
  | ldVxDt x | ldVxK x | ldDtVx x | ldStVx x | addIVx x | ldFVx x | ldBVx x | ldMemVx x | ldVxMem x =>
    simp (disch := decide) only [encode, decodeWord, decodeMisc, opField_encodeXkk, xField_encodeXkk, kkField_encodeXkk,
      BitVec.toNat_ofNat, Nat.reducePow, Nat.reduceMod]

/-- The two bytes of a well-formed instruction decode to it and leave what follows them (R87, R110). -/
theorem decode_encodeBytes_append {i : Instr} (h : i.wf = true) (rest : List Byte) :
    decode (encodeBytes i ++ rest) = .ok (i, rest) := by
  simp only [encodeBytes, List.cons_append, List.nil_append, decode, wordOfBytes_hi_lo, decodeWord_encode h]
  rfl

/-- Settles O3, on words and on bytes. -/
theorem decodeInvertsEncode : Obligations.DecodeInvertsEncode :=
  fun _ h => ⟨decodeWord_encode h, decode_encodeBytes_append h⟩

/-- A word of a known `op` is assembled from that `op` and its `nnn`. -/
theorem encodeNnn_of_op {w : Word} {op : Nat} (hop : opField w = op) : encodeNnn op (nnnField w) = w :=
  hop ▸ encodeNnn_fields w

/-- A word of a known `op` is assembled from that `op`, its `x` and its `kk`. -/
theorem encodeXkk_of_op {w : Word} {op : Nat} (hop : opField w = op) : encodeXkk op (xField w) (kkField w) = w :=
  hop ▸ encodeXkk_fields w

/-- A word of a known `op` and `kk` is assembled from them and its `x`. -/
theorem encodeXkk_of_op_kk {w : Word} {op kk : Nat} (hop : opField w = op) (hkk : (kkField w).toNat = kk) :
    encodeXkk op (xField w) (BitVec.ofNat 8 kk) = w := by
  rw [← hkk, BitVec.ofNat_toNat, BitVec.setWidth_eq, encodeXkk_of_op hop]

/-- A word of a known `op` and `n` is assembled from them, its `x` and its `y`. -/
theorem encodeXyn_of_op_n {w : Word} {op n : Nat} (hop : opField w = op) (hn : (nField w).val = n) :
    encodeXyn op (xField w) (yField w) n = w :=
  hop ▸ hn ▸ encodeXyn_fields w

section
variable {w : Word} {i : Instr}

theorem encode_of_decodeAlu (hop : opField w = 0x8) (h : decodeAlu w = .ok i) : encode i = w ∧ i.wf = true := by
  unfold decodeAlu at h
  split at h
  case h_10 => nomatch h
  all_goals
    next hn =>
    cases h
    exact ⟨encodeXyn_of_op_n hop hn, rfl⟩

theorem encode_of_decodeKey (hop : opField w = 0xE) (h : decodeKey w = .ok i) : encode i = w ∧ i.wf = true := by
  unfold decodeKey at h
  split at h
  case h_3 => nomatch h
  all_goals
    next hkk =>
    cases h
    exact ⟨encodeXkk_of_op_kk hop hkk, rfl⟩

theorem encode_of_decodeMisc (hop : opField w = 0xF) (h : decodeMisc w = .ok i) : encode i = w ∧ i.wf = true := by
  unfold decodeMisc at h
  split at h
  case h_10 => nomatch h
  all_goals
    next hkk =>
    cases h
    exact ⟨encodeXkk_of_op_kk hop hkk, rfl⟩

/-- A word with op = 0 is CLS, RET or HALT (R116). -/
theorem decodeWord_of_op_zero (hop : opField w = 0x0) :
    decodeWord w = if w = 0x00E0#16 then .ok .cls else if w = 0x00EE#16 then .ok .ret else .ok (.halt (nnnField w)) := by
  simp only [decodeWord, hop]

/-- op = 0: what is left for HALT is well-formed, since CLS and RET were tested first (R116). -/
theorem encode_of_decodeWord_op_zero (hop : opField w = 0x0) (h : decodeWord w = .ok i) : encode i = w ∧ i.wf = true := by
  rw [decodeWord_of_op_zero hop] at h
  split_ifs at h with hcls hret <;> cases h
  · exact ⟨hcls.symm, rfl⟩
  · exact ⟨hret.symm, rfl⟩
  · have hw : encode (.halt (nnnField w)) = w := encodeNnn_of_op hop
    refine ⟨hw, halt_wf_iff.2 ⟨fun e => hcls ?_, fun e => hret ?_⟩⟩ <;> rw [← hw, e] <;> rfl

/-- A word that decodes is assembled from the fields the decoder gave its instruction, by the format of its `op`. -/
theorem encode_of_decodeWord (h : decodeWord w = .ok i) : encode i = w ∧ i.wf = true := by
  have h₀ := h
  unfold decodeWord at h
  split at h
  -- op = 0, 8, E, F
  case h_1 hop => exact encode_of_decodeWord_op_zero hop h₀
  case h_9 hop => exact encode_of_decodeAlu hop h
  case h_15 hop => exact encode_of_decodeKey hop h
  case h_16 hop => exact encode_of_decodeMisc hop h
  -- op = 1, 2, A, B: format NNN
  case h_2 hop | h_3 hop | h_11 hop | h_12 hop => cases h; exact ⟨encodeNnn_of_op hop, rfl⟩
  -- op = 3, 4, 6, 7, C: format XKK
  case h_4 hop | h_5 hop | h_7 hop | h_8 hop | h_13 hop => cases h; exact ⟨encodeXkk_of_op hop, rfl⟩
  -- op = 5, 9: format XY, an instruction for n = 0 only
  case h_6 hop | h_10 hop =>
    split at h
    · next hn => cases h; exact ⟨encodeXyn_of_op_n hop hn, rfl⟩
    · nomatch h
  -- op = D: format XYN
  case h_14 hop => cases h; exact ⟨encodeXyn_of_op_n hop rfl, rfl⟩
  case h_17 => nomatch h

/-- Decoding and encoding are one relation between words and well-formed instructions. -/
theorem decodeWord_eq_ok : decodeWord w = .ok i ↔ encode i = w ∧ i.wf = true :=
  ⟨encode_of_decodeWord, fun ⟨hw, hi⟩ => hw ▸ decodeWord_encode hi⟩

end

/-- Settles O4. -/
theorem encodeInvertsDecode : Obligations.EncodeInvertsDecode := fun _ _ => encode_of_decodeWord

/-- Settles O1: four fixed words, decoded and taken apart. -/
theorem sourceWordsDecode : Obligations.SourceWordsDecode := by
  unfold Obligations.SourceWordsDecode
  decide

/-- Settles O2: sixteen fixed words, decoded. -/
theorem writtenWordsDecode : Obligations.WrittenWordsDecode := by
  unfold Obligations.WrittenWordsDecode
  decide

end Sys2Proof
end

section
/-! The words that are no operation and the words that are HALT, by their nibbles (30_encoding.md R117, R118). -/
namespace Sys2Proof

theorem opField_lt (w : Word) : opField w < 16 := by
  have := w.isLt
  unfold opField
  omega

theorem extractLsb'_eq_opField (w : Word) : w.extractLsb' 12 4 = BitVec.ofNat 4 (opField w) := by
  apply BitVec.eq_of_toNat_eq
  rw [BitVec.extractLsb'_toNat, BitVec.toNat_ofNat, Nat.shiftRight_eq_div_pow, opField]

theorem extractLsb'_eq_nField (w : Word) : w.extractLsb' 0 4 = BitVec.ofNat 4 (nField w).val := by
  apply BitVec.eq_of_toNat_eq
  simp [nField]

theorem extractLsb'_eq_kkField (w : Word) : w.extractLsb' 0 8 = kkField w := rfl

/-- The five rows of R118, by the nibbles `op` and `n` and the byte `kk` of a word. -/
def InvalidNibbles (op n : BitVec 4) (kk : Byte) : Prop :=
  (op = 0x5#4 ∧ n ≠ 0x0#4) ∨
  (op = 0x8#4 ∧ n ∈ [0x8#4, 0x9#4, 0xA#4, 0xB#4, 0xC#4, 0xD#4, 0xF#4]) ∨
  (op = 0x9#4 ∧ n ≠ 0x0#4) ∨
  (op = 0xE#4 ∧ kk ∉ [0x9E#8, 0xA1#8]) ∨
  (op = 0xF#4 ∧ kk ∉ [0x07#8, 0x0A#8, 0x15#8, 0x18#8, 0x1E#8, 0x29#8, 0x33#8, 0x55#8, 0x65#8])

/-- The answer `r` to the word `w` is InvalidOpcode with the word if `invalid` holds, and an instruction if it does not. -/
def Answers (w : Word) (invalid : Prop) (r : Except DecodeError Instr) : Prop :=
  (invalid ∧ r = .error (.invalidOpcode w)) ∨ (¬ invalid ∧ ∃ i, r = .ok i)

section
variable {w : Word} {invalid : Prop} {r : Except DecodeError Instr}

theorem Answers.of_ok {i : Instr} (h : ¬ invalid) : Answers w invalid (.ok i) := .inr ⟨h, i, rfl⟩

theorem Answers.of_error (h : invalid) : Answers w invalid (.error (.invalidOpcode w)) := .inl ⟨h, rfl⟩

theorem Answers.error_iff (h : Answers w invalid r) : r = .error (.invalidOpcode w) ↔ invalid := by
  obtain ⟨h, rfl⟩ | ⟨h, i, rfl⟩ := h <;> simp [h]

theorem Answers.ok_iff (h : Answers w invalid r) : (∃ i, r = .ok i) ↔ ¬ invalid := by
  obtain ⟨h, rfl⟩ | ⟨h, i, rfl⟩ := h <;> simp [h]

end

/-- op = 5 and op = 9: one instruction for n = 0, none for another n (D8). -/
theorem answers_of_n_zero (w : Word) (i : Instr) :
    Answers w (BitVec.ofNat 4 (nField w).val ≠ 0x0#4)
      (if (nField w).val = 0 then .ok i else .error (.invalidOpcode w)) := by
  generalize nField w = n
  split
  · next hn => exact .of_ok (by simp [hn])
  · next hn =>
    apply Answers.of_error
    revert n
    decide

theorem decodeAlu_answers (w : Word) (kk : Byte) :
    Answers w (InvalidNibbles 0x8#4 (BitVec.ofNat 4 (nField w).val) kk) (decodeAlu w) := by
  unfold decodeAlu
  generalize nField w = n
  split
  case h_10 =>
    refine .of_error (.inr (.inl ⟨rfl, ?_⟩))
    revert n
    decide
  all_goals next hn => exact .of_ok (by simp [InvalidNibbles, hn])

theorem decodeKey_answers (w : Word) (n : BitVec 4) : Answers w (InvalidNibbles 0xE#4 n (kkField w)) (decodeKey w) := by
  unfold decodeKey
  split
  case h_3 => exact .of_error (by simp_all [InvalidNibbles, ← BitVec.toNat_inj])
  all_goals next hkk => exact .of_ok (by simp [InvalidNibbles, ← BitVec.toNat_inj, hkk])

theorem decodeMisc_answers (w : Word) (n : BitVec 4) : Answers w (InvalidNibbles 0xF#4 n (kkField w)) (decodeMisc w) := by
  unfold decodeMisc
  split
  case h_10 => exact .of_error (by simp_all [InvalidNibbles, ← BitVec.toNat_inj])
  all_goals next hkk => exact .of_ok (by simp [InvalidNibbles, ← BitVec.toNat_inj, hkk])

/-- The decoder's answer to every word, by its nibbles: an `op` that no row of R118 names has an instruction for every word. -/
theorem decodeWord_answers (w : Word) :
    Answers w (InvalidNibbles (w.extractLsb' 12 4) (w.extractLsb' 0 4) (w.extractLsb' 0 8)) (decodeWord w) := by
  rw [extractLsb'_eq_opField, extractLsb'_eq_nField, extractLsb'_eq_kkField]
  unfold decodeWord
  split
  -- op = 0
  case h_1 hop => split_ifs <;> exact .of_ok (by simp [InvalidNibbles, hop])
  -- op = 5, 9
  case h_6 hop | h_10 hop => simpa [InvalidNibbles, hop] using answers_of_n_zero w _
  -- op = 8, E, F
  case h_9 hop => exact hop ▸ decodeAlu_answers w _
  case h_15 hop => exact hop ▸ decodeKey_answers w _
  case h_16 hop => exact hop ▸ decodeMisc_answers w _
  -- no `op` is left for the last arm
  case h_17 =>
    have hlt := opField_lt w
    interval_cases opField w <;> contradiction
  all_goals next hop => exact .of_ok (by simp [InvalidNibbles, hop])

/-- Settles O5. -/
theorem invalidWordsExactly : Obligations.InvalidWordsExactly := fun w =>
  ⟨(decodeWord_answers w).error_iff, (decodeWord_answers w).ok_iff⟩

theorem decodeWord_halt_iff {w : Word} :
    (∃ nnn, decodeWord w = .ok (.halt nnn)) ↔ opField w = 0x0 ∧ w ≠ 0x00E0#16 ∧ w ≠ 0x00EE#16 := by
  constructor
  · rintro ⟨nnn, h⟩
    obtain ⟨rfl, -⟩ := decodeWord_eq_ok.1 h
    refine ⟨opField_encodeNnn (by decide) nnn, ?_, ?_⟩ <;> intro hw <;> rw [hw] at h <;> nomatch h
  · rintro ⟨hop, hcls, hret⟩
    exact ⟨nnnField w, by rw [decodeWord_of_op_zero hop, if_neg hcls, if_neg hret]⟩

theorem top_nibble_zero_iff {w : Word} : w.extractLsb' 12 4 = 0x0#4 ↔ opField w = 0x0 := by
  have := opField_lt w
  rw [extractLsb'_eq_opField, ← BitVec.toNat_inj, BitVec.toNat_ofNat, BitVec.toNat_ofNat]
  omega

/-- The decoder's answer is HALT. -/
def isHalt : Except DecodeError Instr → Bool
  | .ok (.halt _) => true
  | _ => false

theorem isHalt_iff {r : Except DecodeError Instr} : isHalt r = true ↔ ∃ nnn, r = .ok (.halt nnn) := by
  constructor
  · intro h
    unfold isHalt at h
    split at h
    · exact ⟨_, rfl⟩
    · nomatch h
  · rintro ⟨_, rfl⟩
    rfl

/-- The two words with op = 0 that are not HALT. -/
def notHalt : Finset ℕ := {0x0E0, 0x0EE}

theorem isHalt_decodeWord_ofNat {k : Nat} (hk : k < 0x1000) :
    isHalt (decodeWord (BitVec.ofNat 16 k)) = true ↔ k ∉ notHalt := by
  rw [isHalt_iff, decodeWord_halt_iff, opField, notHalt]
  simp only [ne_eq, ← BitVec.toNat_inj, BitVec.toNat_ofNat, Finset.mem_insert, Finset.mem_singleton, not_or]
  omega

/-- The HALT words are counted by what they leave out: 0x1000 words with op = 0 but for two. -/
theorem countP_isHalt : (List.range 0x1000).countP (fun k => isHalt (decodeWord (BitVec.ofNat 16 k))) = 4094 := by
  have hsub : notHalt ⊆ Finset.range 0x1000 := by simp [notHalt, Finset.insert_subset_iff]
  calc (List.range 0x1000).countP (fun k => isHalt (decodeWord (BitVec.ofNat 16 k)))
      = Nat.count (· ∉ notHalt) 0x1000 :=
        List.countP_congr fun k hk => by rw [isHalt_decodeWord_ofNat (List.mem_range.1 hk), decide_eq_true_iff]
    _ = (Finset.range 0x1000 \ notHalt).card := by
        rw [Nat.count_eq_card_filter_range, Finset.filter_notMem_eq_sdiff]
    _ = 0x1000 - notHalt.card := by rw [Finset.card_sdiff_of_subset hsub, Finset.card_range]
    _ = 4094 := rfl

/-- Settles O6. -/
theorem haltWordsExactly : Obligations.HaltWordsExactly :=
  ⟨fun _ => by rw [top_nibble_zero_iff, decodeWord_halt_iff], rfl, countP_isHalt⟩

end Sys2Proof
end

section
/-! The step cycle (40_step_cycle.md R150 to R160): one equation per phase of a step, with the fetch and a word placed for it,
an ended run, and where an instruction leaves `pc`. -/
namespace Sys2Proof.Machine

variable {s : State}

/-- A running step after the host's acts: the boundary halts, quit first, else the tick and the instruction (R150, R152). -/
theorem step_of_running (hr : s.run = .running) :
    step s = if s.hostActs.quitReq then .next (s.hostActs.halt .quit)
      else if Config.memSize ≤ s.pc.toNat then .next (s.hostActs.halt .pcOutOfRange)
      else s.hostActs.tickTimers.runInstr := by
  simp [step, State.request, State.cycle, hr]

theorem step_of_quit (hr : s.run = .running) (hq : s.hostActs.quitReq = true) :
    step s = .next (s.hostActs.halt .quit) := by
  rw [step_of_running hr, if_pos hq]

theorem step_of_pcOutOfRange (hr : s.run = .running) (hq : s.hostActs.quitReq = false)
    (hpc : Config.memSize ≤ s.pc.toNat) : step s = .next (s.hostActs.halt .pcOutOfRange) := by
  rw [step_of_running hr, if_neg (Bool.eq_false_iff.1 hq), if_pos hpc]

/-- Past the boundary a step is the tick, then the fetch, the decode and the instruction (R153 to R156). -/
theorem step_of_pc_lt (hr : s.run = .running) (hq : s.hostActs.quitReq = false)
    (hpc : s.pc.toNat < Config.memSize) : step s = s.hostActs.tickTimers.runInstr := by
  rw [step_of_running hr, if_neg (Bool.eq_false_iff.1 hq), if_neg (Nat.not_le_of_lt hpc)]

/-- Settles O44. -/
theorem boundaryHalts : Obligations.BoundaryHalts := fun _ hr => ⟨step_of_quit hr, step_of_pcOutOfRange hr⟩

theorem State.runInstr_of_fetch_none (hf : s.fetch = none) :
    s.runInstr = .next (s.raise .outOfBoundsAccess none (some .instructionFetch)) := by
  simp only [State.runInstr, hf]

theorem State.runInstr_of_decode_error {w : Word} {e : DecodeError} (hf : s.fetch = some w)
    (hd : decodeWord w = .error e) : s.runInstr = .next (s.raise .invalidOpcode (some w) none) := by
  simp only [State.runInstr, hf, hd]

theorem State.runInstr_of_decode_ok {w : Word} {i : Instr} (hf : s.fetch = some w) (hd : decodeWord w = .ok i) :
    s.runInstr = exec i s := by
  simp only [State.runInstr, hf, hd]

/-- The host's acts leave what the step fetches (R66). -/
@[simp] theorem State.hostActs_fetch (s : State) : s.hostActs.fetch = s.fetch := by
  simp [State.fetch_eq]

theorem State.fetch_of_lt (hpc : s.pc.toNat + 1 < Config.memSize) :
    s.fetch = some (wordOfBytes (Memory.read s.mem s.pc.toNat) (Memory.read s.mem (s.pc.toNat + 1))) := by
  rw [State.fetch_eq, if_pos hpc]

/-- A step that fetches the word of an instruction runs it (R156). -/
theorem step_of_decode_ok {w : Word} {i : Instr} (hr : s.run = .running) (hq : s.hostActs.quitReq = false)
    (hf : s.fetch = some w) (hd : decodeWord w = .ok i) : step s = exec i s.hostActs.tickTimers := by
  rw [step_of_pc_lt hr hq (Nat.lt_of_succ_lt (State.lt_memSize_of_fetch hf)), State.runInstr_of_decode_ok (by simpa using hf) hd]

/-- Settles O41. -/
theorem stepRunsDecoded : Obligations.StepRunsDecoded :=
  fun _ _ hr hq hpc hd => step_of_decode_ok hr hq (State.fetch_of_lt hpc) hd

/-- What a fatal error of the step itself leaves, over the state in which the step began: the pc recorded is its own. -/
theorem State.raise_hostActs_tickTimers (s : State) (k : FaultKind) (w : Option Word) (c : Option FaultCause) :
    s.hostActs.tickTimers.raise k w c = { s.hostActs.tickTimers with run := .faulted ⟨k, w, s.pc, c⟩ } := by
  simp [State.raise]

/-- Settles O46: 0xFFF is the one pc inside memory with no whole word. -/
theorem fetchPastEndFaults : Obligations.FetchPastEndFaults := by
  intro s hr hq hpc
  have hlt : s.pc.toNat < Config.memSize := by rw [hpc]; decide
  have hf : s.fetch = none := (State.fetch_eq_none_iff hlt).2 hpc
  rw [step_of_pc_lt hr hq hlt, State.runInstr_of_fetch_none (by simpa using hf), State.raise_hostActs_tickTimers]

/-- Settles O47. -/
theorem invalidWordFaults : Obligations.InvalidWordFaults := by
  intro s w e hr hq hpc hw hd
  have hf : s.fetch = some w := hw ▸ State.fetch_of_lt hpc
  refine ⟨none, ?_⟩
  rw [step_of_pc_lt hr hq (Nat.lt_of_succ_lt hpc), State.runInstr_of_decode_error (by simpa using hf) hd,
    State.raise_hostActs_tickTimers]

/-- A whole word can be fetched at the pc where a word is placed (R153). -/
theorem fetchablePc_succ_lt (s : State) : (fetchablePc s).toNat + 1 < Config.memSize := by
  unfold fetchablePc
  split
  · assumption
  · decide

@[simp] theorem State.placeWord_mem (s : State) (w : Word) : (s.placeWord w).mem =
    Memory.put (Memory.put s.mem (fetchablePc s).toNat (hiByte w)) ((fetchablePc s).toNat + 1) (loByte w) := rfl
@[simp] theorem State.placeWord_pc (s : State) (w : Word) : (s.placeWord w).pc = fetchablePc s := rfl
@[simp] theorem State.placeWord_host (s : State) (w : Word) : (s.placeWord w).host = withoutQuit s.host := rfl

/-- The step fetches the word placed (R87). -/
theorem State.placeWord_fetch (hm : Memory.wf s.mem) (w : Word) : (s.placeWord w).fetch = some w := by
  have hpc := fetchablePc_succ_lt s
  have hhi : Memory.read (s.placeWord w).mem (fetchablePc s).toNat = hiByte w := by
    rw [State.placeWord_mem, Memory.read_put_other _ _ (Nat.ne_of_lt (Nat.lt_succ_self _)), Memory.read_put_same _ _ hm]
  have hlo : Memory.read (s.placeWord w).mem ((fetchablePc s).toNat + 1) = loByte w :=
    Memory.read_put_same _ _ (Memory.put_wf _ hm (Nat.lt_of_succ_lt hpc))
  rw [State.fetch_of_lt (s := s.placeWord w) hpc, State.placeWord_pc, hhi, hlo, wordOfBytes_hi_lo]

/-- No quit stands or comes with the host's next acts after a word is placed. -/
theorem State.placeWord_hostActs_quitReq (s : State) (w : Word) : (s.placeWord w).hostActs.quitReq = false := by
  cases h : s.host with
  | nil => rw [State.hostActs_of_nil (by rw [State.placeWord_host, h]; rfl)]; rfl
  | cons e rest => rw [State.hostActs_of_cons (by rw [State.placeWord_host, h]; rfl)]; rfl

theorem tableWord_toNat (w : Word) : tableWord 16 w.toNat = w := by
  rw [tableWord, Nat.mod_eq_of_lt w.isLt, BitVec.ofNat_toNat, BitVec.setWidth_eq]

/-- Settles O42: the step fetches the word placed, and that word decodes to its instruction. -/
theorem placedWordRunsNext : Obligations.PlacedWordRunsNext := by
  intro s i hm hi
  rw [State.withFetchWord, tableWord_toNat]
  exact step_of_decode_ok rfl (s.placeWord_hostActs_quitReq _) (State.placeWord_fetch hm _) (decodeWord_encode hi)

/-- A run has ended exactly when it has ended well or badly (R307). -/
theorem State.ended_iff : s.ended ↔ s.endedWell ∨ s.endedBadly := by
  cases h : s.run <;> simp [State.ended, State.endedWell, State.endedBadly, h]

theorem State.not_endedBadly_of_endedWell (h : s.endedWell) : ¬ s.endedBadly := by
  rintro ⟨record, hb⟩
  obtain ⟨reason, hw⟩ := h
  rw [hw] at hb
  nomatch hb

theorem step_of_ended (h : s.ended) : step s = .next s := by
  obtain ⟨reason, hr⟩ | ⟨record, hr⟩ := State.ended_iff.1 h <;> simp only [step, State.request, hr]

/-- An ended run stays, by induction on the number of steps (R151). -/
theorem core_run_of_ended (h : s.ended) (k : Nat) : Sys2Proof.core.run k s = .next s := by
  induction k with
  | zero => rfl
  | succ k ih =>
    have hstep : Sys2Proof.core.step s = .next s := step_of_ended h
    simp only [Host.Core.run, hstep, ih]

/-- Settles O43: what a number of steps answers is the ended state itself. -/
theorem endedRunIsFinal : Obligations.EndedRunIsFinal := by
  refine fun s h => ⟨core_run_of_ended h, State.ended_iff.1 h, fun hw k t ht => ?_⟩
  obtain rfl : s = t := eq_of_next ht (core_run_of_ended h k)
  exact State.not_endedBadly_of_endedWell hw

/-- Settles O56: the two ways an instruction ends. -/
theorem exec_pcOutcomes : Obligations.PcOutcomes := by
  intro i s t h
  obtain ⟨hr, hp, -⟩ | ⟨hr, hp, -⟩ := exec_completes_or_raises h
  · exact ⟨fun _ => hp, fun hr' => absurd (hr.symm.trans hr') Bool.false_ne_true⟩
  · exact ⟨fun hr' => absurd (hr'.symm.trans hr) Bool.false_ne_true, fun _ => hp⟩

end Sys2Proof.Machine
end

section
/-! Control flow (41_control_flow.md R171 to R179): the skips as one state each, and CALL and RET on each side of the bound of
the call stack. -/
namespace Sys2Proof.Machine

variable {s : State}

/-- Settles O7. -/
theorem jumpSetsPc : Obligations.JumpSetsPc := fun _ _ => rfl

/-- Settles O14. -/
theorem haltEndsRun : Obligations.HaltEndsRun := fun _ _ => rfl

/-- Neither operand of JP V0 is wide enough for their 16-bit sum to wrap (R178, D14). -/
theorem offsetTarget_toNat (nnn : BitVec 12) (v0 : Byte) : (offsetTarget nnn v0).toNat = nnn.toNat + v0.toNat := by
  simp only [offsetTarget, BitVec.toNat_add, BitVec.toNat_setWidth]
  omega

/-- Settles O8: the sum does not wrap, so it is at most 0xFFF + 0xFF. -/
theorem offsetJumpSetsPc : Obligations.OffsetJumpSetsPc := by
  intro s nnn
  have hsum := offsetTarget_toNat nnn (s.getV 0)
  refine ⟨s.jump (offsetTarget nnn (s.getV 0)), rfl, hsum, ?_, rfl⟩
  have hnnn := nnn.isLt
  have hv0 := (s.getV 0).isLt
  simp only [State.jump_pc, hsum]
  omega

/-- The skip of SE as one state (R170). -/
theorem State.skipIf_beq (s : State) (a b : Byte) :
    s.skipIf (a == b) = { s with pc := if a = b then s.pc + 4 else s.pc + 2 } := by
  simp only [State.skipIf_eq, beq_iff_eq]

/-- The skip of SNE as one state (R170). -/
theorem State.skipIf_bne (s : State) (a b : Byte) :
    s.skipIf (a != b) = { s with pc := if a ≠ b then s.pc + 4 else s.pc + 2 } := by
  simp only [State.skipIf_eq, bne_iff_ne]

/-- Settles O9. -/
theorem immediateSkips : Obligations.ImmediateSkips := fun s x kk =>
  ⟨congrArg Host.Outcome.next (s.skipIf_beq (s.getV x) kk), congrArg Host.Outcome.next (s.skipIf_bne (s.getV x) kk)⟩

/-- SE Vx, Vy as one state (R176). -/
theorem exec_seVxVy_eq (x y : Reg) (s : State) :
    exec (.seVxVy x y) s = .next { s with pc := if s.getV x = s.getV y then s.pc + 4 else s.pc + 2 } :=
  congrArg Host.Outcome.next (s.skipIf_beq (s.getV x) (s.getV y))

/-- SNE Vx, Vy as one state (R177). -/
theorem exec_sneVxVy_eq (x y : Reg) (s : State) :
    exec (.sneVxVy x y) s = .next { s with pc := if s.getV x ≠ s.getV y then s.pc + 4 else s.pc + 2 } :=
  congrArg Host.Outcome.next (s.skipIf_bne (s.getV x) (s.getV y))

/-- Settles O10: with x = y the test of SE is true and that of SNE false. -/
theorem registerSkips : Obligations.RegisterSkips := fun s x y =>
  ⟨exec_seVxVy_eq x y s, exec_sneVxVy_eq x y s, by rw [exec_seVxVy_eq, if_pos rfl],
    by rw [exec_sneVxVy_eq, if_neg (not_not_intro rfl)]⟩

/-- CALL with room on the stack pushes and jumps (R172). -/
theorem exec_call_of_lt (h : s.sp.val < 16) (nnn : BitVec 12) : exec (.call nnn) s = .next { s with
    stack := s.stack.set s.sp.val (s.pc + 2), sp := ⟨s.sp.val + 1, Nat.succ_lt_succ h⟩, pc := nnn.setWidth 16 } := by
  obtain ⟨hfull, -⟩ | ⟨_, e⟩ := execCall_cases nnn s
  · exact absurd hfull (Nat.ne_of_lt h)
  · exact e

/-- CALL on a full stack raises (R172). -/
theorem exec_call_of_full (h : s.sp.val = 16) (nnn : BitVec 12) :
    exec (.call nnn) s = .next (s.outOfBounds (.call nnn) .stackOverflow) := by
  obtain ⟨-, e⟩ | ⟨hlt, -⟩ := execCall_cases nnn s
  · exact e
  · exact absurd h (Nat.ne_of_lt hlt)

/-- RET with an entry in use pops it into pc (R171). -/
theorem exec_ret_of_succ {n : Nat} (hn : n < 16) (h : s.sp.val = n + 1) :
    exec .ret s = .next { s with sp := ⟨n, Nat.lt_succ_of_lt hn⟩, pc := s.stack[n] } := by
  obtain ⟨hzero, -⟩ | ⟨m, hm, hsp, e⟩ := execRet_cases s
  · exact absurd (h.symm.trans hzero) (Nat.succ_ne_zero n)
  · obtain rfl : n = m := Nat.succ.inj (h.symm.trans hsp)
    exact e

/-- RET on an empty stack raises (R171, D15). -/
theorem exec_ret_of_empty (h : s.sp.val = 0) : exec .ret s = .next (s.outOfBounds .ret .stackUnderflow) := by
  obtain ⟨-, e⟩ | ⟨n, -, hsp, -⟩ := execRet_cases s
  · exact e
  · exact absurd (hsp.symm.trans h) (Nat.succ_ne_zero n)

/-- Settles O11. -/
theorem callPushes : Obligations.CallPushes := by
  refine fun s nnn => ⟨fun h => ⟨_, exec_call_of_lt h nnn, rfl, fun j => ?_, rfl, rfl⟩, fun h => exec_call_of_full h nnn⟩
  simp only [Vector.getElem_set, eq_comm]

/-- Settles O12. -/
theorem returnPops : Obligations.ReturnPops :=
  fun _ => ⟨fun n h => ⟨_, exec_ret_of_succ n.isLt h, rfl, rfl, rfl⟩, exec_ret_of_empty⟩

/-- Settles O13: the RET pops the slot the CALL wrote, and the CALL wrote no slot below it. -/
theorem returnUndoesCall : Obligations.ReturnUndoesCall := by
  intro s nnn h
  refine ⟨_, exec_call_of_lt h nnn, fun u hsp hstack => ?_⟩
  have hret := exec_ret_of_succ h (congrArg Fin.val hsp)
  refine ⟨_, hret, ?_, rfl, fun j hj => ?_⟩
  · simp only [hstack, Vector.getElem_set_self]
  · simp only [hstack, Vector.getElem_set_ne _ _ (Nat.ne_of_gt hj)]

end Sys2Proof.Machine
end

section
/-! Arithmetic and logic (42_alu.md R190 to R202): what a write of Vx, with or without a flag, leaves of the other registers
and fields, and the results and flags as numbers or bit by bit. -/
namespace Sys2Proof.Machine

theorem State.setV_getV_self (s : State) (x : Reg) (v : Byte) : (s.setV x v).getV x = v := by
  rw [State.getV_setV, if_pos rfl]

theorem State.setResultFlag_getV_dest (s : State) {x : Reg} (hx : x ≠ VF) (v f : Byte) :
    (s.setResultFlag x v f).getV x = v := by
  rw [State.getV_setResultFlag, if_neg hx, if_pos rfl]

/-- What an operation that writes Vx alone leaves: the other registers, and every field but `V` and `pc` (R191). -/
theorem State.setV_advance_frame (s : State) (x : Reg) (v : Byte) :
    (∀ r, r ≠ x → (s.setV x v).advance.getV r = s.getV r) ∧
    (s.setV x v).advance = { s with V := (s.setV x v).advance.V, pc := s.pc + 2 } :=
  ⟨fun r hr => by rw [State.advance_getV, State.getV_setV, if_neg hr], rfl⟩

/-- What an operation that writes Vx and the flag leaves: the other registers, and every field but `V` and `pc` (R190). -/
theorem State.setResultFlag_advance_frame (s : State) (x : Reg) (v f : Byte) :
    (∀ r, r ≠ x → r ≠ VF → (s.setResultFlag x v f).advance.getV r = s.getV r) ∧
    (s.setResultFlag x v f).advance = { s with V := (s.setResultFlag x v f).advance.V, pc := s.pc + 2 } :=
  ⟨fun r hr hf => by rw [State.advance_getV, State.getV_setResultFlag, if_neg hf, if_neg hr], rfl⟩

theorem flagByte_decide_toNat (p : Prop) [Decidable p] : (flagByte (decide p)).toNat = if p then 1 else 0 := by
  by_cases hp : p <;> simp [flagByte, hp]

theorem addResult_toNat (a b : Byte) : (addResult a b).toNat = (a.toNat + b.toNat) % 256 :=
  BitVec.toNat_ofNat _ 8

/-- The 256 added before the subtraction keeps it from going below 0, and the narrowing takes it off again (R198). -/
theorem subResult_toNat (a b : Byte) : ((subResult a b).toNat : Int) = (a.toNat - b.toNat : Int) % 256 := by
  have hb := b.isLt
  simp only [subResult, BitVec.toNat_ofNat]
  omega

theorem shrResult_eq (a : Byte) : shrResult a = a >>> 1 :=
  BitVec.eq_of_toNat_eq (by simp only [shrResult, BitVec.toNat_ofNat, BitVec.toNat_ushiftRight, Nat.shiftRight_one]; omega)

theorem shlResult_eq (a : Byte) : shlResult a = a <<< 1 :=
  BitVec.eq_of_toNat_eq (by simp only [shlResult, BitVec.toNat_ofNat, BitVec.toNat_shiftLeft, Nat.shiftLeft_eq, pow_one])

theorem shrResult_getLsbD (a : Byte) (b : Nat) : (shrResult a).getLsbD b = a.getLsbD (b + 1) := by
  rw [shrResult_eq, BitVec.getLsbD_ushiftRight, Nat.add_comm]

theorem shlResult_getLsbD_zero (a : Byte) : (shlResult a).getLsbD 0 = false := by
  simp [shlResult_eq]

theorem shlResult_getLsbD_succ (a : Byte) {b : Nat} (hb : b < 7) : (shlResult a).getLsbD (b + 1) = a.getLsbD b := by
  have hb' : b + 1 < 8 := Nat.succ_lt_succ hb
  rw [shlResult_eq, BitVec.getLsbD_shiftLeft]
  simp [hb']

/-- Settles O15. -/
theorem registerLoads : Obligations.RegisterLoads := fun s x _ kk =>
  ⟨⟨_, rfl, s.setV_getV_self x kk, s.setV_advance_frame x kk⟩,
    ⟨_, rfl, s.setV_getV_self x _, s.setV_advance_frame x _⟩⟩

/-- Settles O16. -/
theorem addImmediateNoCarry : Obligations.AddImmediateNoCarry := fun s x kk =>
  ⟨_, rfl, by rw [State.advance_getV, State.setV_getV_self, addResult_toNat], s.setV_advance_frame x _⟩

/-- Settles O17. -/
theorem logicBitwise : Obligations.LogicBitwise := fun s x y =>
  ⟨⟨_, rfl, fun b _ => by rw [State.advance_getV, State.setV_getV_self, BitVec.getLsbD_or], s.setV_advance_frame x _⟩,
    ⟨_, rfl, fun b _ => by rw [State.advance_getV, State.setV_getV_self, BitVec.getLsbD_and], s.setV_advance_frame x _⟩,
    ⟨_, rfl, fun b _ => by rw [State.advance_getV, State.setV_getV_self, BitVec.getLsbD_xor], s.setV_advance_frame x _⟩⟩

/-- Settles O21: the value of `rand` is any byte. -/
theorem randomIsMasked : Obligations.RandomIsMasked := fun s x kk =>
  ⟨_, rfl, fun b _ => by rw [State.advance_getV, State.setV_getV_self, BitVec.getLsbD_and], s.setV_advance_frame x _⟩

/-- Settles O18: the flag is written last, so it stands when x = F (D17). -/
theorem addSetsCarry : Obligations.AddSetsCarry := by
  refine fun s x y => ⟨_, rfl, fun hx => ?_, ?_, s.setResultFlag_advance_frame x _ _⟩
  · rw [State.advance_getV, s.setResultFlag_getV_dest hx, addResult_toNat]
  · rw [State.advance_getV, State.setResultFlag_getV_VF, carryFlag, flagByte_decide_toNat]

/-- The subtraction of SUB and SUBN, whichever register is the minuend `a` (R198, R200, D17). -/
theorem State.setResultFlag_sub (s : State) (x : Reg) (a b : Byte) :
    (x ≠ VF → (((s.setResultFlag x (subResult a b) (flagByte (greaterFlag a b))).getV x).toNat : Int) =
      (a.toNat - b.toNat : Int) % 256) ∧
    ((s.setResultFlag x (subResult a b) (flagByte (greaterFlag a b))).getV VF).toNat =
      if b.toNat < a.toNat then 1 else 0 := by
  refine ⟨fun hx => ?_, ?_⟩
  · rw [s.setResultFlag_getV_dest hx, subResult_toNat]
  · rw [State.setResultFlag_getV_VF, greaterFlag, flagByte_decide_toNat]

/-- Settles O19: SUBN is SUB with the operands the other way round. -/
theorem subtractSetsGreater : Obligations.SubtractSetsGreater := by
  intro s x y
  obtain ⟨hsub, hsubFlag⟩ := s.setResultFlag_sub x (s.getV x) (s.getV y)
  obtain ⟨hsubn, hsubnFlag⟩ := s.setResultFlag_sub x (s.getV y) (s.getV x)
  exact ⟨⟨_, rfl, hsub, hsubFlag, s.setResultFlag_advance_frame x _ _⟩,
    ⟨_, rfl, hsubn, hsubnFlag, s.setResultFlag_advance_frame x _ _⟩⟩

/-- Settles O20: the flag is the old bit 0 or bit 7 of Vx, and `y` is not read (D19). -/
theorem shiftsByOne : Obligations.ShiftsByOne := by
  refine fun s x y =>
    ⟨⟨_, rfl, fun hx b _ => ?_, s.setResultFlag_getV_VF x _ _, s.setResultFlag_advance_frame x _ _⟩,
      ⟨_, rfl, fun hx => ?_, s.setResultFlag_getV_VF x _ _, s.setResultFlag_advance_frame x _ _⟩⟩
  · rw [State.advance_getV, s.setResultFlag_getV_dest hx, shrResult_getLsbD]
  · rw [State.advance_getV, s.setResultFlag_getV_dest hx]
    exact ⟨shlResult_getLsbD_zero _, fun b hb => shlResult_getLsbD_succ _ hb⟩

end Sys2Proof.Machine
end

section
/-! The index register and the transfers at I (43_index_memory.md R220 to R225): the sums and digits as numbers, what a
transfer inside memory answers, and what the stores leave at each address. -/
namespace Sys2Proof.Machine

variable {s : State} {x k : Reg}

/-- Settles O22. -/
theorem loadIndex : Obligations.LoadIndex := fun _ _ => rfl

/-- Settles O23: a sum of at most 0xFFFF is not changed by its narrowing to 16 bits. -/
theorem addToIndex : Obligations.AddToIndex := by
  intro s x
  obtain ⟨h, e⟩ | ⟨h, e⟩ := execAddIVx_cases x s
  · exact ⟨fun hle => absurd h (Nat.not_lt.2 hle), fun _ => e⟩
  · have hsum := (BitVec.toNat_ofNat (indexSum s x) 16).trans (Nat.mod_eq_of_lt (Nat.lt_succ_of_le h))
    exact ⟨fun _ => ⟨_, e, hsum, rfl⟩, fun hlt => absurd h (Nat.not_le.2 hlt)⟩

/-- Five times a byte fits in 16 bits, so the product does not wrap (R222, D22). -/
theorem glyphAddr_toNat (g : Byte) : (glyphAddr g).toNat = g.toNat * 5 := by
  have hg := g.isLt
  rw [glyphAddr, BitVec.toNat_mul, BitVec.toNat_setWidth]
  change g.toNat % 2 ^ 16 * 5 % 2 ^ 16 = g.toNat * 5
  omega

/-- Settles O24. -/
theorem glyphAddress : Obligations.GlyphAddress := fun s x => ⟨_, rfl, glyphAddr_toNat (s.getV x), rfl⟩

/-- The digits are below 10, so each fits in its byte (R223). -/
theorem bcdDigits_toNat (v : Byte) :
    (bcdDigits v).map BitVec.toNat = [v.toNat / 100, v.toNat / 10 % 10, v.toNat % 10] := by
  simp only [bcdDigits, List.map_cons, List.map_nil, BitVec.toNat_ofNat, List.cons.injEq, and_true]
  omega

/-- LD B inside memory stores its digits (R223). -/
theorem exec_ldBVx_of_lt (h : effAddr s 2 < Config.memSize) : exec (.ldBVx x) s = .next { s with
    mem := Memory.fill s.mem (effAddr s 0) (bcdDigits (s.getV x)), pc := s.pc + 2 } := by
  obtain ⟨-, e⟩ | ⟨hge, -⟩ := execLdBVx_cases x s
  · exact e
  · exact absurd h (Nat.not_lt.2 hge)

/-- LD B past the end of memory raises (R223, R302). -/
theorem exec_ldBVx_of_le (h : Config.memSize ≤ effAddr s 2) : exec (.ldBVx x) s = .next { s with
    mem := Memory.faultRun s.mem s.draws (effAddr s 0) 3
    run := .faulted ⟨.outOfBoundsAccess, some (encode (.ldBVx x)), s.pc,
      some (.memoryWrite (max (effAddr s 0) Config.memSize))⟩ } := by
  obtain ⟨hlt, -⟩ | ⟨-, e⟩ := execLdBVx_cases x s
  · exact absurd hlt (Nat.not_lt.2 h)
  · exact e

/-- The k-th digit stored, as a number, at I + k (R223). -/
theorem Memory.read_fill_bcdDigits (hm : Memory.wf s.mem) (h : effAddr s 2 < Config.memSize) (v : Byte)
    {j : Nat} (hj : j < 3) :
    (Memory.read (Memory.fill s.mem (effAddr s 0) (bcdDigits v)) (effAddr s j)).toNat =
      [v.toNat / 100, v.toNat / 10 % 10, v.toNat % 10][j] := by
  have hread := Memory.read_fill (bs := bcdDigits v) hm h hj
  simp only [← bcdDigits_toNat, List.getElem_map]
  exact congrArg BitVec.toNat hread

/-- Settles O25. -/
theorem bcdStored : Obligations.BcdStored := by
  intro s x hm
  refine ⟨fun h => ?_, fun h => ⟨_, _, exec_ldBVx_of_le h, rfl, rfl, rfl⟩⟩
  have hdigit {j : Nat} (hj : j < 3) := Memory.read_fill_bcdDigits hm h (s.getV x) hj
  refine ⟨_, exec_ldBVx_of_lt h, hdigit (by decide : 0 < 3), hdigit (by decide : 1 < 3), hdigit (by decide : 2 < 3),
    fun a h0 h1 h2 => Memory.read_fill_other _ ?_, rfl⟩
  simp only [effAddr] at h0 h1 h2
  simp only [effAddr, bcdDigits, List.length_cons, List.length_nil]
  omega

/-- A dump of V0 to Vx is of x + 1 bytes (R224). -/
theorem State.length_firstRegs_succ (s : State) (x : Reg) : (s.firstRegs (x.val + 1)).length = x.val + 1 := by
  rw [State.length_firstRegs, Nat.min_eq_left x.isLt]

/-- LD [I], Vx inside memory stores V0 to Vx (R224). -/
theorem exec_ldMemVx_of_lt (h : effAddr s x.val < Config.memSize) : exec (.ldMemVx x) s = .next { s with
    mem := Memory.fill s.mem (effAddr s 0) (s.firstRegs (x.val + 1)), pc := s.pc + 2 } := by
  obtain ⟨-, e⟩ | ⟨hge, -⟩ := execLdMemVx_cases x s
  · exact e
  · exact absurd h (Nat.not_lt.2 hge)

/-- A dump leaves Vk at I + k (R224). -/
theorem Memory.read_fill_firstRegs (hm : Memory.wf s.mem) (h : effAddr s x.val < Config.memSize) (hk : k ≤ x) :
    Memory.read (Memory.fill s.mem (effAddr s 0) (s.firstRegs (x.val + 1))) (effAddr s k.val) = s.getV k := by
  have hend : effAddr s 0 + (s.firstRegs (x.val + 1)).length ≤ Config.memSize := by
    rw [State.length_firstRegs_succ]
    exact h
  have hkx : k.val < (s.firstRegs (x.val + 1)).length := by
    rw [State.length_firstRegs_succ]
    exact Nat.lt_succ_of_le hk
  exact (Memory.read_fill hm hend hkx).trans (s.firstRegs_getElem hkx k.isLt)

/-- A dump leaves every byte alone that is at no I + k (R224). -/
theorem Memory.read_fill_firstRegs_other {a : Nat} (ha : ∀ k : Reg, k ≤ x → a ≠ effAddr s k.val) :
    Memory.read (Memory.fill s.mem (effAddr s 0) (s.firstRegs (x.val + 1))) a = Memory.read s.mem a := by
  refine Memory.read_fill_other _ ?_
  by_contra hin
  simp only [State.length_firstRegs_succ, effAddr] at hin ha
  exact ha ⟨a - s.I.toNat, by omega⟩ (Fin.mk_le_of_le_val (by omega)) (by dsimp only; omega)

/-- Settles O26. -/
theorem dumpStores : Obligations.DumpStores := fun _ _ hm h =>
  ⟨_, exec_ldMemVx_of_lt h, fun _ hk => Memory.read_fill_firstRegs hm h hk,
    fun _ ha => Memory.read_fill_firstRegs_other ha, rfl⟩

/-- LD Vx, [I] inside memory loads V0 to Vx (R225). -/
theorem exec_ldVxMem_of_lt (h : effAddr s x.val < Config.memSize) : exec (.ldVxMem x) s =
    .next (s.loadRegs ((List.range (x.val + 1)).map fun j => Memory.read s.mem (effAddr s 0 + j))).advance := by
  obtain ⟨-, e⟩ | ⟨hge, -⟩ := execLdVxMem_cases x s
  · exact e
  · exact absurd h (Nat.not_lt.2 hge)

/-- A register among the first `n` takes its byte of a load of `n` bytes, and a higher one stays (R225). -/
theorem State.getV_loadRegs_range (s : State) (n : Nat) (f : Nat → Byte) (r : Reg) :
    (s.loadRegs ((List.range n).map f)).getV r = if r.val < n then f r.val else s.getV r := by
  rw [State.getV_loadRegs]
  split <;> simp [*]

/-- Settles O27. -/
theorem loadFills : Obligations.LoadFills := by
  refine fun s x h => ⟨_, exec_ldVxMem_of_lt h, fun k hk => ?_, fun r hr => ?_, rfl⟩
  · rw [State.advance_getV, State.getV_loadRegs_range, if_pos (Nat.lt_succ_of_le hk)]
    rfl
  · rw [State.advance_getV, State.getV_loadRegs_range, if_neg (Nat.not_lt.2 hr)]

/-- Settles O28: the load reads the addresses the dump wrote, since the dump left I (D23). -/
theorem dumpLoadRoundTrip : Obligations.DumpLoadRoundTrip := by
  intro s x hm h
  obtain ⟨t, ht, hstored, -, hframe⟩ := dumpStores s x hm h
  refine ⟨t, ht, fun u hmem hI => ?_⟩
  have haddr (j : Nat) : effAddr u j = effAddr s j := by rw [effAddr, hI, hframe, effAddr]
  obtain ⟨v, hv, hloaded, -⟩ := loadFills u x (haddr x.val ▸ h)
  exact ⟨v, hv, fun k hk => by rw [hloaded k hk, hmem, haddr, hstored k hk]⟩

end Sys2Proof.Machine
end

section
/-! The framebuffer (44_framebuffer.md R240 to R248): what `xor_write` leaves of each pixel, the mask a DRW toggles, and the
two-draw law that follows from it. -/
namespace Sys2Proof.Machine

/-- `xor_write` with `on` reports the old value of its pixel (R242). -/
@[simp] theorem Framebuffer.xorWrite_collided (fb : Framebuffer) (x : Fin 64) (y : Fin 32) :
    (fb.xorWrite x y true).2 = fb.pixel x y := rfl

/-- `xor_write` with `on` toggles its own pixel (R242). -/
@[simp] theorem Framebuffer.xorWrite_pixel_self (fb : Framebuffer) (x : Fin 64) (y : Fin 32) :
    (fb.xorWrite x y true).1.pixel x y = !fb.pixel x y :=
  (fb.pixel_plot x x y y _).trans (if_pos ⟨rfl, rfl⟩)

/-- `xor_write` with `on` leaves every other pixel (R242). -/
theorem Framebuffer.xorWrite_pixel_other (fb : Framebuffer) {x x' : Fin 64} {y y' : Fin 32} (h : (x', y') ≠ (x, y)) :
    (fb.xorWrite x y true).1.pixel x' y' = fb.pixel x' y' :=
  (fb.pixel_plot x x' y y' _).trans (if_neg fun e => h (Prod.ext e.1 e.2))

/-- Settles O30. -/
theorem xorWriteToggles : Obligations.XorWriteToggles := fun fb x y =>
  ⟨fb.xorWrite_collided x y, fb.xorWrite_pixel_self x y, fun _ _ h => fb.xorWrite_pixel_other h, rfl,
    fun hoff => by simp [hoff]⟩

/-- Settles O33. -/
theorem clearScreen : Obligations.ClearScreen := fun _ => ⟨_, rfl, fbClear_pixel, rfl⟩

/-- A DRW toggles the pixels of its sprite's mask, the rows being the bytes at I, I + 1, ... (R246, R247). -/
theorem drawSprite_toggles (s : State) (x y : Reg) (n : Nat) :
    Toggles (spriteBit s (originX (s.getV x)) (originY (s.getV y)) n) (s.fb, false)
      (drawSprite x y ((List.range n).map fun k => Memory.read s.mem (effAddr s 0 + k)) s) := by
  have hrows := drawRows_toggles (originX (s.getV x)) (originY (s.getV y))
    ((List.range n).map fun k => Memory.read s.mem (effAddr s 0 + k)) (s.fb, false)
  rw [List.length_map, List.length_range] at hrows
  suffices hmask : spriteBit s (originX (s.getV x)) (originY (s.getV y)) n = _ from hmask ▸ hrows
  funext px py
  cases hbox : inSpriteBox (originX (s.getV x)) (originY (s.getV y)) n px.val py.val with
  | false => simp [spriteBit, hbox]
  | true =>
    have hrow : py.val - originY (s.getV y) < n := by
      simp only [inSpriteBox, decide_eq_true_eq] at hbox
      omega
    simp [spriteBit, hbox, hrow, effAddr]

/-- The flag of a drawing that started from none is the collision of its mask with the screen (R244). -/
theorem Toggles.collided_iff {M : Fin 64 → Fin 32 → Bool} {fb : Framebuffer} {d : Drawing} (h : Toggles M (fb, false) d) :
    d.2 = true ↔ ∃ px py, M px py = true ∧ fb.pixel px py = true := by
  simpa using h.2

/-- DRW with its rows inside memory: the mask is toggled, VF is the flag, and it presents once (R246, R248, D25). -/
theorem exec_drw_of_lt {s : State} {x y : Reg} {n : Fin 16} (h : n.val = 0 ∨ effAddr s (n.val - 1) < Config.memSize) :
    ∃ d : Drawing, Toggles (spriteBit s (originX (s.getV x)) (originY (s.getV y)) n.val) (s.fb, false) d ∧
      exec (.drw x y n) s = .next ({ s with fb := d.1 }.setV VF (flagByte d.2)).present.advance := by
  obtain ⟨-, d, rfl, e⟩ | ⟨hn, hge, -⟩ := execDrw_cases x y n s
  · exact ⟨_, drawSprite_toggles s x y n.val, e⟩
  · omega

/-- Settles O31. -/
theorem drawXorsSprite : Obligations.DrawXorsSprite := by
  intro s x y n h x0 y0
  obtain ⟨d, hd, e⟩ := exec_drw_of_lt (x := x) (y := y) h
  have hflag : ({ s with fb := d.1 }.setV VF (flagByte d.2)).present.advance.getV VF = flagByte d.2 := by
    rw [State.advance_getV, State.present_getV, State.setV_getV_self]
  refine ⟨_, e, hd.1, fun hc => ?_, fun hc => ?_, fun r hr => ?_, rfl⟩
  · rw [hflag, hd.collided_iff.2 hc]
    rfl
  · rw [hflag, Bool.eq_false_iff.2 (mt hd.collided_iff.1 hc)]
    rfl
  · rw [State.advance_getV, State.present_getV, State.getV_setV, if_neg hr]
    rfl

/-- The mask of a sprite depends on memory and I alone (R246). -/
theorem spriteBit_congr {s t : State} (hmem : t.mem = s.mem) (hI : t.I = s.I) (x0 y0 n : Nat) :
    spriteBit t x0 y0 n = spriteBit s x0 y0 n := by
  funext px py
  rw [spriteBit, spriteBit, hmem, effAddr, effAddr, hI]

/-- Settles O32: the second draw has the mask of the first, since a draw leaves memory, I, Vx and Vy; a set bit then finds its
pixel on exactly where the first draw found it off. -/
theorem drawTwiceErases : Obligations.DrawTwiceErases := by
  intro s x y n h hx hy
  obtain ⟨t, ht, htfb, -, -, htV, hframe⟩ := drawXorsSprite s x y n h
  have hmem : t.mem = s.mem := by rw [hframe]
  have hI : t.I = s.I := by rw [hframe]
  obtain ⟨u, hu, hufb, hu1, hu0, -, -⟩ := drawXorsSprite t x y n (by rwa [effAddr, hI])
  rw [htV x hx, htV y hy] at hufb hu1 hu0
  refine ⟨t, u, ht, hu, Framebuffer.ext_pixel fun px py => ?_, ?_⟩
  · rw [hufb, htfb, spriteBit_congr hmem hI, Bool.xor_assoc, Bool.xor_self, Bool.xor_false]
  · have hcollides : u.getV VF = 0x01#8 ↔
        spriteCollides t ((s.getV x).toNat % 64) ((s.getV y).toNat % 32) n.val :=
      ⟨fun h1 => by_contra fun hc => absurd (h1.symm.trans (hu0 hc)) (by decide), hu1⟩
    rw [hcollides, spriteCollides, spriteBit_congr hmem hI]
    refine exists_congr fun px => exists_congr fun py => and_congr_right fun hbit => ?_
    rw [htfb, hbit, Bool.xor_true, Bool.not_eq_true']

end Sys2Proof.Machine
end

section
/-! The timers (45_timers.md R260 to R266): a tick as one equation per case, the output of ST, what an instruction writes into a
timer, and what a whole step leaves of one. -/
namespace Sys2Proof.Machine

section
variable {t : Timer} {now : Time}

theorem Timer.tick_of_zero (h0 : t.value = 0) : t.tick now = t := if_pos h0

theorem Timer.tick_of_due (h0 : t.value ≠ 0) (hdue : 1 ≤ (now - t.ref) * 60) : t.tick now = ⟨t.value - 1, now⟩ := by
  rw [Timer.tick, if_neg h0, Timer.due, if_pos (decide_eq_true hdue)]

theorem Timer.tick_of_not_due (hdue : (now - t.ref) * 60 < 1) : t.tick now = t :=
  (t.tick_cases now).resolve_right fun ⟨_, h, _⟩ => absurd h (not_le_of_gt hdue)

/-- Taking one from a nonzero byte does not wrap (R263). -/
theorem toNat_sub_one_add_one {v : Byte} (h0 : v ≠ 0) : (v - 1).toNat + 1 = v.toNat := by
  bv_omega

end

/-- Settles O34. -/
theorem tickDecrementsOnce : Obligations.TickDecrementsOnce := fun t now =>
  ⟨fun h0 hdue => by
    rw [Timer.tick_of_due h0 hdue]
    exact ⟨toNat_sub_one_add_one h0, rfl⟩,
  Timer.tick_of_zero, Timer.tick_of_not_due⟩

theorem State.soundOn_iff (s : State) : s.soundOn = true ↔ s.ST.value ≠ 0 := bne_iff_ne

/-- Settles O35. -/
theorem timerTransfers : Obligations.TimerTransfers := fun s x =>
  ⟨rfl, ⟨_, rfl, rfl, State.soundOn_iff _⟩, ⟨_, rfl, s.setV_getV_self x _, s.setV_advance_frame x _⟩⟩

/-- Settles O36: the step runs the instruction in the state after the tick. -/
theorem delayReadFollowsTick : Obligations.DelayReadFollowsTick := by
  intro s x hr hq hpc hd
  obtain ⟨-, -, t, ht, hx, hother, hframe⟩ := timerTransfers s.hostActs.tickTimers x
  exact ⟨t, (stepRunsDecoded s _ hr hq hpc hd).trans ht, by simpa using hx, by simpa using hother, by simpa using hframe⟩

section
variable {s t : State} {i : Instr}

/-- An instruction keeps DT or is the one that sets it (R265). -/
theorem exec_DT (h : exec i s = .next t) : t.DT = s.DT ∨ ∃ x, i = .ldDtVx x ∧ t.DT = ⟨s.getV x, s.now⟩ := by
  obtain ⟨-, -, -, -, hDT, -⟩ := onlyNamedWriters i s t h
  refine or_iff_not_imp_left.2 fun hm => ?_
  obtain ⟨x, rfl⟩ := hDT hm
  cases h
  exact ⟨x, rfl, rfl⟩

/-- An instruction keeps ST or is the one that sets it (R266). -/
theorem exec_ST (h : exec i s = .next t) : t.ST = s.ST ∨ ∃ x, i = .ldStVx x ∧ t.ST = ⟨s.getV x, s.now⟩ := by
  obtain ⟨-, -, -, -, -, hST, -⟩ := onlyNamedWriters i s t h
  refine or_iff_not_imp_left.2 fun hm => ?_
  obtain ⟨x, rfl⟩ := hST hm
  cases h
  exact ⟨x, rfl, rfl⟩

end

/-- A timer that a step ticks and may then set has stayed, lost one or been set (R263). -/
theorem Timer.moves_of_tick_or {old new : Timer} {now : Time} {isSet : Prop} (h : new = old.tick now ∨ isSet) :
    new = old ∨ (new.value.toNat + 1 = old.value.toNat ∧ 1 ≤ (now - old.ref) * 60 ∧ new.ref = now) ∨ isSet := by
  obtain rfl | h := h
  · obtain e | ⟨h0, hdue, e⟩ := old.tick_cases now
    · exact .inl e
    · exact .inr (.inl ⟨by rw [e]; exact toNat_sub_one_add_one h0, hdue, by rw [e]⟩)
  · exact .inr (.inr h)

/-- Settles O37: a step that does not reach its tick leaves both timers, one that faults after it has only ticked them, and an
instruction runs on the ticked ones. -/
theorem timersMoveByOne : Obligations.TimersMoveByOne := by
  intro s t h
  have hle := s.hostActs_now_le
  have hDT : s.hostActs.tickTimers.DT = s.DT.tick s.hostActs.now := by simp
  have hST : s.hostActs.tickTimers.ST = s.ST.tick s.hostActs.now := by simp
  obtain ⟨-, e⟩ | ⟨-, -, e⟩ | ⟨-, -, -, e⟩ | ⟨-, -, -, -, e⟩ | ⟨_, _, -, -, -, -, -, e⟩ | ⟨w, i, -, -, -, hf, hd, e⟩ :=
    step_cases s
  · cases eq_of_next h e
    exact ⟨le_rfl, .inl rfl, .inl rfl⟩
  · cases eq_of_next h e
    exact ⟨hle, .inl s.hostActs_DT, .inl s.hostActs_ST⟩
  · cases eq_of_next h e
    exact ⟨hle, .inl s.hostActs_DT, .inl s.hostActs_ST⟩
  · cases eq_of_next h e
    exact ⟨hle, Timer.moves_of_tick_or (.inl hDT), Timer.moves_of_tick_or (.inl hST)⟩
  · cases eq_of_next h e
    exact ⟨hle, Timer.moves_of_tick_or (.inl hDT), Timer.moves_of_tick_or (.inl hST)⟩
  · have hx := e.symm.trans h
    rw [exec_now hx, State.tickTimers_now]
    refine ⟨hle, Timer.moves_of_tick_or ((exec_DT hx).imp (·.trans hDT) ?_),
      Timer.moves_of_tick_or ((exec_ST hx).imp (·.trans hST) ?_)⟩
    all_goals
      rintro ⟨x, rfl, ex⟩
      exact ⟨w, x, hf, hd, by simpa using ex⟩

end Sys2Proof.Machine
end

section
/-! The key instructions: SKP and SKNP on a matching key and on none (R283, R284), LD Vx, K with an empty latch and with a
key (R285). -/
namespace Sys2Proof.Machine

section
variable {s : State} {x : Reg}

/-- `keyIs` is the model's own test for a matching key (R283, R284). -/
theorem State.keyMatches_of_keyIs (h : keyIs s x) : s.keyMatches x = true := (s.keyMatches_iff x).2 h

theorem State.keyMatches_of_not_keyIs (h : ¬ keyIs s x) : s.keyMatches x = false :=
  eq_false_of_ne_true (mt (s.keyMatches_iff x).1 h)

end

/-- Settles O38: both outcomes are SKP's one state, read at a match and at none. -/
theorem skipOnKey : Obligations.SkipOnKey := fun s x =>
  ⟨fun h => (execSkp_eq x s).trans (by simp only [State.keyMatches_of_keyIs h, if_true]),
    fun h => (execSkp_eq x s).trans (by simp only [State.keyMatches_of_not_keyIs h, Bool.false_eq_true, if_false])⟩

/-- Settles O39: both outcomes are SKNP's one state, read at a match and at none. -/
theorem skipOnNoKey : Obligations.SkipOnNoKey := fun s x =>
  ⟨fun h => (execSknp_eq x s).trans (by simp only [State.keyMatches_of_keyIs h, if_true]),
    fun h => (execSknp_eq x s).trans (by simp only [State.keyMatches_of_not_keyIs h, Bool.false_eq_true, if_false])⟩

/-- Every key code fits a register. -/
theorem keyByte_toNat (k : KeyCode) : (keyByte k).toNat = k.val :=
  BitVec.toNat_ofNat k.val 8 ▸ Nat.mod_eq_of_lt (by have := k.isLt; omega)

/-- Settles O40: the last key is what separates the waiting form from the taking one, which is a register load from the state
with an empty latch. -/
theorem keyWait : Obligations.KeyWait := by
  intro s x
  obtain ⟨hnone, e⟩ | ⟨k, hk, e⟩ := execLdVxK_cases x s
  · refine ⟨fun _ => e, fun k hk => ?_⟩
    exact absurd (hnone.symm.trans hk) nofun
  · refine ⟨fun hempty => ?_, fun k' hk' => ?_⟩
    · exact absurd (hk.symm.trans (congrArg List.getLast? hempty)) nofun
    · obtain rfl : k = k' := Option.some.inj (hk.symm.trans hk')
      refine ⟨_, e, ?_, s.latchClear.setV_advance_frame x (keyByte k)⟩
      rw [State.advance_getV, State.latchClear_getV, State.setV_getV_self, keyByte_toNat]

end Sys2Proof.Machine
end

section
/-! The fatal errors (60_exceptions.md R300 to R304): what an access at I past the end of memory leaves, and in which steps each
of the two errors is raised. -/
namespace Sys2Proof.Machine

section
variable {s : State} {x y : Reg} {n : Fin 16}

/-- LD [I], Vx past the end of memory raises, with free bytes where it would have stored (R224, R304). -/
theorem exec_ldMemVx_of_le (h : Config.memSize ≤ effAddr s x.val) : exec (.ldMemVx x) s = .next { s with
    mem := Memory.faultRun s.mem s.draws (effAddr s 0) (x.val + 1)
    run := .faulted ⟨.outOfBoundsAccess, some (encode (.ldMemVx x)), s.pc,
      some (.memoryWrite (max (effAddr s 0) Config.memSize))⟩ } := by
  obtain ⟨hlt, -⟩ | ⟨-, e⟩ := execLdMemVx_cases x s
  · exact absurd hlt (Nat.not_lt.2 h)
  · exact e

/-- LD Vx, [I] past the end of memory raises, with free values where it would have loaded (R225, R304). -/
theorem exec_ldVxMem_of_le (h : Config.memSize ≤ effAddr s x.val) : exec (.ldVxMem x) s =
    .next ((s.faultRegs (x.val + 1)).outOfBounds (.ldVxMem x) (.memoryRead (max (effAddr s 0) Config.memSize))) := by
  obtain ⟨hlt, -⟩ | ⟨-, e⟩ := execLdVxMem_cases x s
  · exact absurd hlt (Nat.not_lt.2 h)
  · exact e

/-- DRW with a row past the end of memory raises, with free values where it would have drawn (R248, R304). -/
theorem exec_drw_of_le (hn : 1 ≤ n.val) (h : Config.memSize ≤ effAddr s (n.val - 1)) : exec (.drw x y n) s =
    .next ((s.faultDraw (originX (s.getV x)) (originY (s.getV y)) n.val).outOfBounds (.drw x y n)
      (.memoryRead (max (effAddr s 0) Config.memSize))) := by
  obtain ⟨h0 | hlt, -⟩ | ⟨-, -, e⟩ := execDrw_cases x y n s
  · exact absurd h0 (Nat.ne_of_gt hn)
  · exact absurd hlt (Nat.not_lt.2 h)
  · exact e

/-- An LD Vx, [I] that raises frees registers, and leaves every other field (R304). -/
theorem State.faultRegs_outOfBounds_frame (s : State) (n : Nat) (i : Instr) (c : FaultCause) :
    (s.faultRegs n).outOfBounds i c = { s with
      V := ((s.faultRegs n).outOfBounds i c).V, run := ((s.faultRegs n).outOfBounds i c).run } := by
  simp only [State.faultRegs, State.outOfBounds, State.raise]

/-- A DRW that raises frees VF, the screen and the count of presents, and leaves every other field (R304). -/
theorem State.faultDraw_outOfBounds_frame (s : State) (x0 y0 n : Nat) (i : Instr) (c : FaultCause) :
    (s.faultDraw x0 y0 n).outOfBounds i c = { s with
      V := ((s.faultDraw x0 y0 n).outOfBounds i c).V, fb := ((s.faultDraw x0 y0 n).outOfBounds i c).fb
      presentCount := ((s.faultDraw x0 y0 n).outOfBounds i c).presentCount
      run := ((s.faultDraw x0 y0 n).outOfBounds i c).run } := by
  simp only [State.faultDraw, State.outOfBounds, State.raise]

end

/-- Settles O29: each answer past the end frees its own range, so a read outside that range sees the state before. -/
theorem indexedAccessFaults : Obligations.IndexedAccessFaults := by
  refine ⟨fun s x h => ?_, fun s x h => ?_, fun s x h => ?_, fun s x y n hn h => ?_⟩
  · exact ⟨_, exec_ldBVx_of_le h, rfl, fun a ha => Memory.read_faultRun_other _ ha, rfl⟩
  · exact ⟨_, exec_ldMemVx_of_le h, rfl, fun a ha => Memory.read_faultRun_other _ ha, rfl⟩
  · refine ⟨_, exec_ldVxMem_of_le h, ?_, fun r hr => ?_, s.faultRegs_outOfBounds_frame ..⟩
    · rw [State.outOfBounds_run, State.faultRegs_pc, Config.memSize]
    · rw [State.outOfBounds_getV, State.getV_faultRegs, if_neg (Nat.not_lt.2 hr)]
  · refine ⟨_, exec_drw_of_le hn h, ?_, fun r hr => ?_, fun px py hbox => ?_, s.faultDraw_outOfBounds_frame ..⟩
    · rw [State.outOfBounds_run, State.faultDraw_pc, Config.memSize]
    · rw [State.outOfBounds_getV, State.getV_faultDraw, if_neg hr]
    · rw [State.outOfBounds_fb, State.faultDraw_pixel, originX, originY, hbox, if_neg Bool.false_ne_true]

/-- The row of R302 reads I, the registers and the depth of the stack, and nothing else. -/
theorem outOfBoundsRow_congr {s t : State} (hI : t.I = s.I) (hV : ∀ r, t.getV r = s.getV r) (hsp : t.sp = s.sp)
    (i : Instr) : outOfBoundsRow i t = outOfBoundsRow i s := by
  have haddr (k : Nat) : effAddr t k = effAddr s k := by rw [effAddr, effAddr, hI]
  have hsum (x : Reg) : indexSum t x = indexSum s x := by rw [indexSum, indexSum, hI, hV]
  cases i with
  | drw _ _ _ | ldBVx _ | ldMemVx _ | ldVxMem _ => simp only [outOfBoundsRow, haddr]
  | addIVx _ => simp only [outOfBoundsRow, hsum]
  | call _ | ret => simp only [outOfBoundsRow, hsp]
  | _ => rfl

/-- Neither the host's acts nor the tick before an instruction change whether it is out of bounds (R66, R154). -/
theorem outOfBoundsRow_hostActs_tickTimers (i : Instr) (s : State) :
    outOfBoundsRow i s.hostActs.tickTimers = outOfBoundsRow i s :=
  outOfBoundsRow_congr (by simp) (by simp) (by simp) i

/-- A faulted state carries one record, so it answers for one kind of error at one pc (R303). -/
theorem exists_record_iff {t : State} {k k' : FaultKind} {w : Option Word} {p : Word} {c : Option FaultCause}
    (h : t.run = .faulted ⟨k, w, p, c⟩) : (∃ r, t.run = .faulted r ∧ r.kind = k' ∧ r.pc = p) ↔ k = k' := by
  simp [h]

/-- Settles O48: a step inside memory fails its fetch, fails its decode, or runs an instruction, which raises exactly on its own
row of R302. -/
theorem faultsExactly : Obligations.FaultsExactly := by
  intro s t hr hq hpc h
  rw [step_of_pc_lt hr hq hpc] at h
  have hlast := State.fetch_eq_none_iff hpc
  cases hf : s.fetch with
  | none =>
    have hrun : t.run = .faulted ⟨.outOfBoundsAccess, none, s.pc, some .instructionFetch⟩ := by
      cases eq_of_next h (State.runInstr_of_fetch_none (by simpa using hf))
      simp
    rw [exists_record_iff hrun, exists_record_iff hrun]
    simp [hlast.1 hf]
  | some w =>
    have hne : s.pc ≠ 0x0FFF#16 := fun e => by simp [hlast.2 e] at hf
    cases hd : decodeWord w with
    | error e =>
      have hrun : t.run = .faulted ⟨.invalidOpcode, some w, s.pc, none⟩ := by
        cases eq_of_next h (State.runInstr_of_decode_error (by simpa using hf) hd)
        simp
      simp [exists_record_iff hrun, hne, hd]
    | ok i =>
      rw [State.runInstr_of_decode_ok (by simpa using hf) hd] at h
      have hrow := outOfBoundsRow_hostActs_tickTimers i s
      obtain ⟨hno, -, ⟨-, hrun⟩ | ⟨-, hrun⟩⟩ | ⟨hyes, -, c, hrun⟩ := exec_completes_or_raises h
      · simp [hrun, hr, hne, hd, ← hrow, hno]
      · simp [hrun, hne, hd, ← hrow, hno]
      · rw [State.tickTimers_pc, State.hostActs_pc] at hrun
        simp [exists_record_iff hrun, hd, ← hrow, hyes]

end Sys2Proof.Machine
end
